-- ==== Sys2Proof/Word.lean ====
section
/-! DEFINITION. The types of the words on the block's ports and wires (spec/30_encoding.md R61 to R63,
spec/00_scope.md R7: every value is an unsigned integer, bit i has weight 2^i). -/

namespace Sys2Proof

/-- A 32-bit word: the operand word of format W32 on `bit_i` (R61) and the result word of format Q32
on `result_o` (R63). -/
abbrev Word := BitVec 32

/-- A 6-bit code: the address word of format A6 on `rem` and `rem_o` (R62), and one entry of the
table (R29). -/
abbrev Code := BitVec 6

/-- A remainder, and an address of log2_lookup_table: one of 0 to 36. The 6-bit codes 37 to 63 have no
entry and never occur, so the type has no such value (R41, spec/93_implementation_defined.md U8). -/
abbrev TableAddress := Fin 37

end Sys2Proof
end

