-- ==== Sys2Proof/Config.lean ====
section
/-! DEFINITION. What an instance of the block fixes for its life: the parameters of
spec/00_scope.md R5, and the one open parameter `LUT_FILL` (assumption log 1). -/

namespace Sys2Proof

/-- The five fill addresses, the remainders no domain word produces (R103): 0, 7, 14, 19, 28. -/
inductive FillAddress where
  | a0 | a7 | a14 | a19 | a28
deriving DecidableEq, Repr

namespace Config

/-- `IN_W`, the width of the input (R5). -/
abbrev inWidth : Nat := 32
/-- `MOD`, the modulus constant, which the document calls CONSTANT (R5, D2). -/
abbrev modulus : Nat := 37
/-- `REM_W`, the width of the remainder (R5). -/
abbrev remWidth : Nat := 6
/-- `LUT_DEPTH`, the number of table addresses (R5). -/
abbrev lutDepth : Nat := 37
/-- `LUT_SPECIFIED`, the number of entries the contract fixes (R5). -/
abbrev lutSpecified : Nat := 32
/-- `LUT_W`, the width of one table entry (R5). -/
abbrev lutWidth : Nat := 6
/-- `OUT_W`, the width of the result output (R5). -/
abbrev outWidth : Nat := 32

/-- `LUT_FILL` (R5, R103, D7 OPEN): the contents of the five fill addresses, a function to [0, 36] fixed
for the life of an instance and under no other law. DESIGN CHOICE (its form only, assumption log 1):
an opaque constant, so that a proof holds for every value of it. Safe. -/
opaque lutFill : FillAddress → Fin 37

end Config

end Sys2Proof
end

