-- ==== Sys2Proof/Syntax.lean ====
section
/-! DEFINITION. The operations of the block (spec/30_encoding.md R65), the words that carry their
operands (R61, R62), where each operation sits, and the stimulus notation of R68 and R69. -/

namespace Sys2Proof

/-- The three operations, one constructor per row of the operation table. -/
inductive Instr where
  /-- MODRED, with the field `x` of W32 (spec/40_modulo_reducer.md R80). -/
  | modred (x : Word)
  /-- LOG2LUT, with the field `a` of A6, which is 0 to 36 (spec/41_log2_lookup_table.md R100). -/
  | log2lut (a : TableAddress)
  /-- COMPUTE, with the field `x` of W32 (spec/42_power_of_two_log.md R120). -/
  | compute (x : Word)
deriving DecidableEq, Repr

/-- Where an operation sits in the datapath, which is all that identifies it (R65: no operation has an
opcode). -/
inductive Site where
  | moduloReducer | log2LookupTable | powerOfTwoLog
deriving DecidableEq, Repr

/-- The two formats of an operand word (R61, R62). -/
inductive Format where
  | w32 | a6
deriving DecidableEq, Repr

/-- An operand word as it stands on a port or a wire: presented whole, never as a sequence of bytes
(spec/20_memory.md R42). -/
inductive PortWord where
  | w32 (x : Word)
  | a6 (c : Code)
deriving DecidableEq, Repr

/-- The sub-block that performs an operation (R65). -/
def Instr.site : Instr → Site
  | .modred _ => .moduloReducer
  | .log2lut _ => .log2LookupTable
  | .compute _ => .powerOfTwoLog

/-- The format of the input word of a site (R65, column "input word"). -/
def Site.format : Site → Format
  | .moduloReducer => .w32
  | .log2LookupTable => .a6
  | .powerOfTwoLog => .w32

/-- The format of a word. -/
def PortWord.format : PortWord → Format
  | .w32 _ => .w32
  | .a6 _ => .a6

/-- The mnemonics of the stimulus notation (R68). -/
inductive Mnemonic where
  | compute | modred | log2lut
deriving DecidableEq, Repr

/-- An operand of the notation (R68). Decimal, `0x` and `0b` are three spellings of one number. -/
inductive Operand where
  | value (n : Nat)
  | oneShiftedLeft (k : Nat)
deriving DecidableEq, Repr

/-- One line of the notation: one evaluation (R68). -/
structure Line where
  mnemonic : Mnemonic
  operand : Operand
deriving DecidableEq, Repr

/-- What a program is written in: lines, and the pseudo-operations of R69. -/
inductive SourceLine where
  | line (l : Line)
  | pow2 (k : Nat)
  | driver
deriving DecidableEq, Repr

end Sys2Proof
end

