-- ==== Sys2Proof/WellFormed.lean ====
section
/-! DEFINITION. The range checks of the stimulus notation (spec/30_encoding.md R68, R69), and which word
can stand at which site (R61, R62). An `Instr` needs no check: every W32 word is legal (R66) and the
operand of LOG2LUT is an address 0 to 36 by its type (spec/20_memory.md R41). -/

namespace Sys2Proof

/-- The number an operand stands for. -/
def Operand.number : Operand → Nat
  | .value n => n
  | .oneShiftedLeft k => 2 ^ k

/-- `1<<k` needs k in [0, 31] (R68). -/
def Operand.wellFormed : Operand → Bool
  | .value _ => true
  | .oneShiftedLeft k => decide (k ≤ 31)

/-- How many numbers a mnemonic's operand may range over (R68): the 32-bit words for `compute` and
`modred`, the addresses 0 to 36 for `log2lut`. -/
def Mnemonic.operandBound : Mnemonic → Nat
  | .compute => 2 ^ Config.inWidth
  | .modred => 2 ^ Config.inWidth
  | .log2lut => Config.lutDepth

/-- A line keeps to R68's ranges. -/
def Line.wellFormed (l : Line) : Bool :=
  l.operand.wellFormed && decide (l.operand.number < l.mnemonic.operandBound)

/-- A source line keeps to the ranges of R68 and R69 (`pow2 k` needs k in [0, 31]). -/
def SourceLine.wellFormed : SourceLine → Bool
  | .line l => l.wellFormed
  | .pow2 k => decide (k ≤ 31)
  | .driver => true

/-- A word that can stand at a site: it has the site's format, and an A6 word is one of the codes 0 to
36, since 37 to 63 are never produced (R62). -/
def PortWord.wellFormedAt (site : Site) : PortWord → Bool
  | .w32 _ => decide (site.format = .w32)
  | .a6 c => decide (site.format = .a6) && decide (c.toNat < Config.lutDepth)

end Sys2Proof
end

