-- ==== Sys2Proof/Machine/Operands.lean ====
section
/-! DEFINITION. Operand and result words: their fields and their assembly (spec/30_encoding.md R61 to R64).
There is no immediate, no sign extension, no scaling and no masking. -/

namespace Sys2Proof.Machine

/-- `1 << k`, the word with only bit k set (spec/00_scope.md R7). -/
def powerWord (k : Nat) : Word := 1#32 <<< k

/-- The A6 word of a remainder (R62). -/
def addressCode (a : TableAddress) : Code := BitVec.ofNat 6 a.val

/-- The field `a` of an A6 word, for the codes that occur; the codes 37 to 63 are given no value
(R62, spec/93_implementation_defined.md U8). -/
def codeAddress (c : Code) : Option TableAddress :=
  if h : c.toNat < 37 then some ⟨c.toNat, h⟩ else none

/-- The Q32 word of a table entry, `zext_32(v)`: 26 zero bits above `v[5:0]` (R63, R64). -/
def resultWord (v : Code) : Word := v.setWidth 32

end Sys2Proof.Machine
end

