-- ==== Sys2Proof/Decode.lean ====
section
/-! DEFINITION. The decoder and the encoder (spec/30_encoding.md R60 to R66), and the assembler of the
stimulus notation (R68, R69). No bit of a word selects an operation: a word is read at a site, and the
site says which operation reads it (R65). -/

namespace Sys2Proof

/-- Why a word at a site is no operand. DEDUCED (assumption log 10). Safe: neither case is met by a step: the block's input is a W32 word,
and the wire `rem` carries the codes 0 to 36 only. -/
inductive DecodeError where
  /-- The word has not the format of the site's input (R65). -/
  | wrongFormat (site : Site)
  /-- An A6 word of code 37 to 63, which is never produced and has no entry (R62, R66). -/
  | neverProduced (c : Code)
deriving DecidableEq, Repr

/-- The block's decoder: the identity on the operand, for every W32 word (R60, R66). What a caller
invokes is COMPUTE (R65). -/
def decodeOperand (x : Word) : Instr := .compute x

/-- The operation that reads a word at a site (R65). -/
def decode : Site → PortWord → Except DecodeError Instr
  | .moduloReducer, .w32 x => .ok (.modred x)
  | .moduloReducer, .a6 _ => .error (.wrongFormat .moduloReducer)
  | .log2LookupTable, .w32 _ => .error (.wrongFormat .log2LookupTable)
  | .log2LookupTable, .a6 c =>
    match Machine.codeAddress c with
    | some a => .ok (.log2lut a)
    | none => .error (.neverProduced c)
  | .powerOfTwoLog, .w32 x => .ok (decodeOperand x)
  | .powerOfTwoLog, .a6 _ => .error (.wrongFormat .powerOfTwoLog)

/-- The operand word of an operation (R61, R62). -/
def encode : Instr → PortWord
  | .modred x => .w32 x
  | .log2lut a => .a6 (Machine.addressCode a)
  | .compute x => .w32 x

/-- The bits of a word, numbered as the operation table numbers them. -/
def PortWord.bits : PortWord → Nat
  | .w32 x => x.toNat
  | .a6 c => c.toNat

/-- The word and the site of a table row's bits, by the row's width in whole bytes: 32 bits are a W32
word on the block's input port (MODRED's row and COMPUTE's have the same words, and what a caller
invokes is COMPUTE), and 8 bits are an A6 word on the wire `rem` with two zero bits above it. DESIGN
CHOICE (assumption log 8). Safe. -/
def tableWord (nbits w : Nat) : Option (Site × PortWord) :=
  if nbits = 32 then some (.powerOfTwoLog, .w32 (BitVec.ofNat 32 w))
  else if nbits = 8 ∧ w < 64 then some (.log2LookupTable, .a6 (BitVec.ofNat 6 w))
  else none

/-- The instruction the decoder reads from a word of the operation table. -/
def decodeTableWord (nbits w : Nat) : Option Instr :=
  match tableWord nbits w with
  | some (site, word) => (decode site word).toOption
  | none => none

/-- The operation a line names, if the line keeps to R68's ranges. -/
def Line.assemble (l : Line) : Option Instr :=
  if l.wellFormed then
    match l.mnemonic with
    | .compute => some (.compute (BitVec.ofNat 32 l.operand.number))
    | .modred => some (.modred (BitVec.ofNat 32 l.operand.number))
    | .log2lut => (Machine.codeAddress (BitVec.ofNat 6 l.operand.number)).map .log2lut
  else none

/-- `pow2 k` is `compute 1<<k` (R69). -/
def pow2Line (k : Nat) : Line := { mnemonic := .compute, operand := .oneShiftedLeft k }

/-- The lines a source line stands for (R69). -/
def SourceLine.expand : SourceLine → List Line
  | .line l => [l]
  | .pow2 k => [pow2Line k]
  | .driver => (List.range 32).map pow2Line

/-- The operations of a program of the notation, none where a line leaves its range. -/
def assemble (src : List SourceLine) : Option (List Instr) :=
  (src.flatMap SourceLine.expand).mapM Line.assemble

end Sys2Proof
end

