-- ==== Sys2Proof/Machine/Datapath.lean ====
section
/-! DEFINITION. The two functions the sub-blocks compute: the remainder of modulo_reducer
(spec/40_modulo_reducer.md R80) and the table of log2_lookup_table (spec/41_log2_lookup_table.md R101). -/

namespace Sys2Proof.Machine

/-- `x mod 37`, the unsigned remainder of the whole word (R80, R81). -/
def modRed (x : Word) : TableAddress := ⟨x.toNat % Config.modulus, Nat.mod_lt _ (by decide)⟩

/-- The content of one table address: an exponent the contract fixes (R102), or one of the five fill
entries (R103). -/
inductive LutEntry where
  | fixed (k : Fin 32)
  | fill (f : FillAddress)
deriving DecidableEq, Repr

/-- The 37 entries in address order, as R101 lists them. -/
def lutTable : Vector LutEntry 37 := #v[
  .fill .a0, .fixed 0, .fixed 1, .fixed 26, .fixed 2, .fixed 23, .fixed 27,
  .fill .a7, .fixed 3, .fixed 16, .fixed 24, .fixed 30, .fixed 28, .fixed 11,
  .fill .a14, .fixed 13, .fixed 4, .fixed 7, .fixed 17,
  .fill .a19, .fixed 25, .fixed 22, .fixed 31, .fixed 15, .fixed 29, .fixed 10, .fixed 12, .fixed 6,
  .fill .a28, .fixed 21, .fixed 14, .fixed 9, .fixed 5, .fixed 20, .fixed 8, .fixed 19, .fixed 18]

/-- The entry at an address. -/
def lutEntry (a : TableAddress) : LutEntry := lutTable.get a

/-- The 6-bit word an entry reads as, in an instance whose fill is `fill`. -/
def LutEntry.code (fill : FillAddress → Fin 37) : LutEntry → Code
  | .fixed k => BitVec.ofNat 6 k.val
  | .fill f => BitVec.ofNat 6 (fill f).val

/-- `RomRead` in an instance whose fill is `fill` (spec/20_memory.md R41): total on the 37 addresses, no
side effect, the same at every read. -/
def romReadWith (fill : FillAddress → Fin 37) (a : TableAddress) : Code := (lutEntry a).code fill

/-- `RomRead(a)` of this instance (R41, R101). -/
def romRead (a : TableAddress) : Code := romReadWith Config.lutFill a

/-- `compute(x)` in an instance whose fill is `fill`: the word on `result_o` (spec/00_scope.md R9). -/
def computeWith (fill : FillAddress → Fin 37) (x : Word) : Word := resultWord (romReadWith fill (modRed x))

/-- One of the five fill addresses 0, 7, 14, 19, 28 (R103). The others are the 32 reachable ones. -/
def isFillAddress (a : TableAddress) : Bool :=
  match lutEntry a with
  | .fixed _ => false
  | .fill _ => true

end Sys2Proof.Machine
end

