-- ==== Sys2Proof/Machine/State.lean ====
section
/-! DEFINITION. What a step works on: the block's stored state, which is none, and its input word
(spec/10_state.md R20, R33); the reasons a step can stop; the block at power-up
(spec/70_reset_and_hazards.md R161). -/

namespace Sys2Proof.Machine

/-- What the block stores: nothing. The one-element type (R20, R33). -/
abbrev Stored := Unit

/-- The block's stored state, and the word on its input port. Nothing else is kept: the output ports are
functions of the input word (`State.remO`, `State.resultO`; R20, R26). DESIGN CHOICE (assumption log 2):
the input of a step, which the spec leaves outside the block's state, stands beside that state, since
the step is a function of one argument. Unsafe. -/
structure State where
  /-- The stored state: none (R20, R33). -/
  stored : Stored := ()
  /-- `bit_i[31:0]`, the input port: whatever the caller drives (R25, R26). -/
  bitI : Word
deriving DecidableEq, Repr

/-- The faults: there are none, since no operation raises anything (spec/60_exceptions.md R140 "A model's
exception type for this block has no constructor"). -/
inductive Fault where
deriving DecidableEq, Repr

/-- The refusals. -/
inductive Refusal where
  /-- An operation that has no meaning yet, raised by an arm of `exec` alone. No arm raises it. Safe. -/
  | notModelled (mnemonic : String)
deriving DecidableEq, Repr

/-- The block at power-up with a defined word on `bit_i` (R161). DESIGN CHOICE (assumption log 3): the
spec says of `bit_i` only "whatever the caller drives" (R32), and the word here is 0. Unsafe. -/
def State.reset : State where
  bitI := 0

end Sys2Proof.Machine
end

