-- ==== Sys2Proof/Machine/Ops.lean ====
section
/-! DEFINITION. The ports and the named operations over them. The spec gives no memory to write, no flag, no
exception and no return from one (spec/20_memory.md R40, spec/10_state.md R23, spec/60_exceptions.md R140,
R144, R145), so no operation here writes, sets, takes or restores any. -/

namespace Sys2Proof.Machine

/-- The wire `rem`, `bit_i mod 37` at every instant (spec/10_state.md R30). -/
def State.remWire (s : State) : TableAddress := modRed s.bitI

/-- The port `rem_o`: the continuous assignment `rem_o <= bit_i mod 37`, a copy of the wire (R27, R30,
spec/40_modulo_reducer.md R80). -/
def State.remO (s : State) : Code := addressCode s.remWire

/-- The port `result_o`: the continuous assignment `result_o <= zext_32(RomRead(rem))` (R28,
spec/41_log2_lookup_table.md R100). -/
def State.resultO (s : State) : Word := resultWord (romRead s.remWire)

/-- The block as R33 of spec/10_state.md sums it up: no state, one input word, and the output pair
(`rem_o`, `result_o`). -/
def blockStep (q : Stored) (x : Word) : Stored × Code × Word :=
  (q, addressCode (modRed x), resultWord (romRead (modRed x)))

/-- The caller presents a word on `bit_i` (spec/30_encoding.md R68), and the outputs are those of that
word (R26). DESIGN CHOICE (assumption log 5): there is no settling time. Unsafe. -/
def State.present (s : State) (x : Word) : State := { s with bitI := x }

/-- The block with the address `a` on the wire `rem`: as it is where the wire carries `a`, which is the
only way the hardware comes by it (spec/30_encoding.md R65). DESIGN CHOICE (assumption log 7): elsewhere
the smallest word that reaches the address stands on `bit_i`, which is `a` itself (spec/40_modulo_reducer.md
R83, spec/95_test_vectors.md V4). Unsafe. -/
def State.presentAddress (s : State) (a : TableAddress) : State :=
  if s.remWire = a then s else s.present (BitVec.ofNat 32 a.val)

/-- A table row's word where the next step reads it: a W32 word on `bit_i`; an A6 word (8 bits) on the
wire `rem`, by the word of the same value on `bit_i`, whose remainder it is. DESIGN CHOICE (assumption
log 9). Safe. -/
def State.presentTableWord (s : State) (_nbits w : Nat) : State := s.present (BitVec.ofNat 32 w)

/-- The operation the block performs on the word present at its input (spec/00_scope.md R10). -/
def fetch (s : State) : Instr := decodeOperand s.bitI

end Sys2Proof.Machine
end

