-- ==== Sys2Proof/Machine/Log2LookupTable.lean ====
section
/-! DEFINITION. The operation of log2_lookup_table (spec/41_log2_lookup_table.md). -/

namespace Sys2Proof.Machine

/-- LOG2LUT (R100): with the address `a` on the wire `rem`, `result_o` carries `zext_32(RomRead(a))`
(`State.resultO`). It stores nothing, writes no entry, sets no flag and raises nothing. -/
def execLog2lut (a : TableAddress) (s : State) : Host.Outcome State Fault Refusal :=
  .next (s.presentAddress a)

end Sys2Proof.Machine
end

