-- ==== Sys2Proof/Machine/ModuloReducer.lean ====
section
/-! DEFINITION. The operation of modulo_reducer (spec/40_modulo_reducer.md). -/

namespace Sys2Proof.Machine

/-- MODRED (R80): with the operand `x` on `bit_i`, `rem` and `rem_o` carry `x mod 37` (`State.remWire`,
`State.remO`). It stores nothing, sets no flag and raises nothing. It is the presentation of
`compute x`, observed on `rem_o` (spec/30_encoding.md R68). -/
def execModred (x : Word) (s : State) : Host.Outcome State Fault Refusal :=
  .next (s.present x)

end Sys2Proof.Machine
end

