-- ==== Sys2Proof/Machine/PowerOfTwoLog.lean ====
section
/-! DEFINITION. The operation of the whole block (spec/42_power_of_two_log.md). -/

namespace Sys2Proof.Machine

/-- COMPUTE (R120): with the operand `x` on `bit_i`, `rem_o` carries `x mod 37` and `result_o` carries
`zext_32(RomRead(x mod 37))` (`State.remO`, `State.resultO`), one table read. It stores nothing, sets no
flag and raises nothing (R128). -/
def execCompute (x : Word) (s : State) : Host.Outcome State Fault Refusal :=
  .next (s.present x)

end Sys2Proof.Machine
end

