-- ==== Sys2Proof/Machine/Dispatch.lean ====
section
/-! DEFINITION. The meaning of every operation, one arm per row of spec/opcode_table.json. -/

namespace Sys2Proof.Machine

def exec (i : Instr) (s : State) : Host.Outcome State Fault Refusal :=
  match i with
  | .modred x => Sys2Proof.Machine.execModred x s
  | .log2lut a => Sys2Proof.Machine.execLog2lut a s
  | .compute x => Sys2Proof.Machine.execCompute x s

end Sys2Proof.Machine
end

