-- ==== Sys2Proof/Machine/Step.lean ====
section
/-! DEFINITION. One step: one evaluation of the word present on `bit_i` (spec/00_scope.md R10). -/

namespace Sys2Proof.Machine

/-- One evaluation (R10, R60, R65): the word on `bit_i` is the operand of the operation the block
performs. The step's output is what the output ports carry for that word; nothing is stored and no
program counter advances (spec/10_state.md R20, R22, R33). -/
def step (s : State) : Host.Outcome State Fault Refusal := exec (fetch s) s

/-- A word of the operation table placed where the next step reads it (assumption log 9). -/
def State.withFetchWord (s : State) (nbits w : Nat) : State := s.presentTableWord nbits w

end Sys2Proof.Machine
end

