-- ==== Sys2Proof/Machine/Caller.lean ====
section
/-! DEFINITION. What a caller does with the block and what it gets back (spec/70_reset_and_hazards.md R167, R168;
spec/30_encoding.md R68). The caller is the environment: nothing here is state of the machine. -/

namespace Sys2Proof.Machine

/-- What one line observes (R68): both outputs for `compute`, `rem_o` alone for `modred`, and the entry
alone for `log2lut`. -/
structure Observation where
  rem : Option Code
  result : Option Word
deriving DecidableEq, Repr

/-- The output pair of an evaluation (R167). -/
def State.outputs (s : State) : Observation := { rem := some s.remO, result := some s.resultO }

/-- What an operation's line observes of the outputs (R68). -/
def lineView : Instr → Observation → Observation
  | .modred _, o => { o with result := none }
  | .log2lut _, o => { o with rem := none }
  | .compute _, o => o

/-- One evaluation of a line, to completion. `compute x` and `modred x` are the same presentation (R68):
`x` on `bit_i`, then one step. `log2lut a` is no presentation the hardware accepts: it names a table
entry, which the operation itself reads. DESIGN CHOICE (assumption log 11). Unsafe. None where the machine stops, which it never does. -/
def evaluate (i : Instr) (s : State) : Option (Observation × State) :=
  let outcome := match i with
    | .modred x => step (s.present x)
    | .log2lut a => exec (.log2lut a) s
    | .compute x => step (s.present x)
  match outcome with
  | .next t => some (lineView i t.outputs, t)
  | .fault _ => none
  | .refused _ => none

/-- The observation of a run: the outputs line by line, in order (R68, R167). -/
def observe : List Instr → State → Option (List Observation)
  | [], _ => some []
  | i :: rest, s =>
    match evaluate i s with
    | some (o, t) => (observe rest t).map (o :: ·)
    | none => none

end Sys2Proof.Machine
end

