-- ==== Sys2Proof/Safety.lean ====
section
/-! DEFINITION. What counts as a safe outcome, and the properties of the ports that claims use. -/

namespace Sys2Proof

/-- The outcome is a next state: nothing faulted, nothing was refused
(spec/42_power_of_two_log.md R122: "it always returns, never fails"). -/
def Completes (o : Host.Outcome Machine.State Machine.Fault Machine.Refusal) : Prop :=
  ∃ t, o = .next t

/-- The intended domain: the words `1 << k`, k in [0, 31] (spec/00_scope.md, glossary). -/
abbrev IsDomainWord (x : Word) : Prop := ∃ k : Fin 32, x = Machine.powerWord k.val

/-- The outputs carry the values R27 and R28 of spec/10_state.md give for the word on `bit_i`. -/
abbrev Machine.State.Settled (s : Machine.State) : Prop :=
  s.remO.toNat = s.bitI.toNat % 37 ∧ s.resultO = Machine.computeWith Config.lutFill s.bitI

/-- `result_o` equals k whenever `bit_i` is 2^k (spec/10_state.md R28). -/
abbrev Machine.State.Exact (s : Machine.State) : Prop :=
  ∀ k : Fin 32, s.bitI = Machine.powerWord k.val → s.resultO = BitVec.ofNat 32 k.val

/-- The ranges of the outputs (spec/10_state.md R27, R28; spec/42_power_of_two_log.md R124): both are in
[0, 36], and the upper 26 bits of `result_o` are 0. -/
abbrev Machine.State.Bounded (s : Machine.State) : Prop :=
  s.remO.toNat ≤ 36 ∧ s.resultO.toNat ≤ 36 ∧ s.resultO.extractLsb' 6 26 = 0

end Sys2Proof
end

