-- ==== Sys2Proof/Certificates/Slice0/Obligations.lean ====
section
/-! DEFINITION. The statements for the provers. Each docstring names the rules of spec/ it formalises; a clause
that rests on a convention of the model names its entry of the assumption log. -/

open Sys2Proof Sys2Proof.Machine

/-! ## Encoding (spec/30_encoding.md) -/

/-- R60, R66: every 32-bit pattern is an operand, handed on whole, at both sites that read a W32 word. -/
def Obligations.EveryWordIsAnOperand : Prop :=
  ∀ x : Word, decode .powerOfTwoLog (.w32 x) = .ok (.compute x) ∧
    decode .moduloReducer (.w32 x) = .ok (.modred x) ∧ decodeOperand x = .compute x

/-- R61, R62, R65: an operation's word, read at the operation's site, is the operation. -/
def Obligations.DecodeOfEncodeIsTheOperation : Prop :=
  ∀ i : Instr, decode i.site (encode i) = .ok i

/-- R61, R62, R65: a site reads an operation from a word only where the operation sits at that site and has that
word: no bit of a word is dropped. -/
def Obligations.DecodedWordIsTheEncoding : Prop :=
  ∀ (site : Site) (w : PortWord) (i : Instr), decode site w = .ok i → i.site = site ∧ encode i = w

/-- R62, R65, R66: a word is read exactly where it has the site's format and, as an A6 word, is one of 0 to 36. That
the codes 37 to 63 are rejected as never produced, and the other format as the wrong one, is the model's choice,
assumption log 10: R66 defines no behaviour for them. -/
def Obligations.DecoderAcceptsExactlyTheSiteWords : Prop :=
  (∀ (site : Site) (w : PortWord), (∃ i, decode site w = .ok i) ↔ w.wellFormedAt site = true) ∧
  (∀ c : Code, 37 ≤ c.toNat → decode .log2LookupTable (.a6 c) = .error (.neverProduced c)) ∧
  (∀ (site : Site) (w : PortWord), w.format ≠ site.format → decode site w = .error (.wrongFormat site))

/-- R61, R62: words written out bit by bit, each at its site. -/
def Obligations.WrittenOutWordsDecode : Prop :=
  decode .moduloReducer (.w32 0b00000000000000000000000100000000) = .ok (.modred 256) ∧
  decode .log2LookupTable (.a6 0b100010) = .ok (.log2lut 34) ∧
  decode .powerOfTwoLog (.w32 0b10000000000000000000000000000000) = .ok (.compute 2147483648)

/-- R65, assumption log 8 and 9 (the model's choice): a table row's word, placed where the step reads it, is run
by the very next step as the operation the decoder reads from it. -/
def Obligations.TableWordRunsInTheNextStep : Prop :=
  ∀ (s : State) (nbits w : Nat) (i : Instr), decodeTableWord nbits w = some i →
    step (s.withFetchWord nbits w) = exec i (s.withFetchWord nbits w)

/-- R68: a line is an operation exactly where its operand is in the mnemonic's range, and the operation's word is
the operand, whichever mnemonic presents it. -/
def Obligations.LinesAssembleExactlyInRange : Prop :=
  (∀ l : Line, l.wellFormed = true → ∃ i, l.assemble = some i ∧ (encode i).bits = l.operand.number ∧
    i.site = (match l.mnemonic with
      | .compute => Site.powerOfTwoLog | .modred => .moduloReducer | .log2lut => .log2LookupTable)) ∧
  (∀ l : Line, l.wellFormed = false → l.assemble = none)

/-- R69: `pow2 k` is `compute 1<<k`, and `driver` is `pow2 0` to `pow2 31` in that order. -/
def Obligations.PseudoOperationsExpand : Prop :=
  (∀ k : Nat, k ≤ 31 → assemble [.pow2 k] = some [.compute (powerWord k)]) ∧
  assemble [.driver] = some ((List.range 32).map fun k => Instr.compute (powerWord k))

/-! ## The step -/

/-- R10, R60, R65: the step is the decoded operation of the word on `bit_i`, and nothing is added around it. -/
def Obligations.StepRunsTheDecodedOperation : Prop :=
  ∀ (s : State) (i : Instr), decode .powerOfTwoLog (.w32 s.bitI) = .ok i → step s = exec i s

/-- R26, R68: presenting a word puts it on `bit_i`, and the evaluation that follows gives the outputs of that
word. -/
def Obligations.PresentedWordIsEvaluated : Prop :=
  ∀ (s : State) (x : Word), (s.present x).bitI = x ∧ ∃ t, step (s.present x) = .next t ∧ t.bitI = x ∧
    t.remO = addressCode (modRed x) ∧ t.resultO = computeWith Config.lutFill x

/-! ## MODRED (spec/40_modulo_reducer.md) -/

/-- R80, R68: MODRED x has x on `bit_i` and drives `rem_o` with the unique r in [0, 36] with x = 37*q + r, with the
rule's corner cases; where x stands on `bit_i` already, it changes nothing. -/
def Obligations.ModredDrivesTheRemainder : Prop :=
  (∀ (x : Word) (s : State), ∃ t, exec (.modred x) s = .next t ∧ t.bitI = x ∧
    t.remO.toNat ≤ 36 ∧ ∃ q : Nat, x.toNat = 37 * q + t.remO.toNat) ∧
  (∀ p ∈ ([(0, 0), (37, 0), (0xFFFFFFFF, 6), (0xFFFFFFF9, 0), (0x80000000, 22), (0x100, 34)] : List (Word × Code)),
    ∀ s : State, ∃ t, exec (.modred p.1) s = .next t ∧ t.remO = p.2) ∧
  (∀ (x : Word) (s : State), x.toNat ≤ 36 → ∃ t, exec (.modred x) s = .next t ∧ t.remO.toNat = x.toNat) ∧
  (∀ s : State, exec (.modred s.bitI) s = .next s)

/-- R82: the remainder lies in [0, 36], and every value of [0, 36] is taken. -/
def Obligations.RemainderRange : Prop :=
  (∀ (x : Word) (s : State), ∃ t, exec (.modred x) s = .next t ∧ t.remO.toNat ≤ 36) ∧
  (∀ r : Nat, r ≤ 36 → ∀ s : State, ∃ t, exec (.modred (BitVec.ofNat 32 r)) s = .next t ∧ t.remO.toNat = r)

/-- R83: small operands are their own remainder; the remainder is 0 exactly for the multiples of 37, of which
there are 116080198 words, no domain word among them. -/
def Obligations.SmallOperandsAndMultiples : Prop :=
  (∀ x : Word, x.toNat ≤ 36 → (modRed x).val = x.toNat) ∧
  (∀ x : Word, modRed x = 0 ↔ 37 ∣ x.toNat) ∧
  ({x : Word | 37 ∣ x.toNat}).ncard = 116080198 ∧
  (∀ x : Word, IsDomainWord x → modRed x ≠ 0)

/-- R84: two words have one remainder exactly when 37 divides their difference; each remainder in [0, 6] is
produced by 116080198 words and each in [7, 36] by 116080197; words 37 apart are indistinguishable after the
reducer. -/
def Obligations.PeriodicityAndCounts : Prop :=
  (∀ x : Word, x.toNat + 37 < 2 ^ 32 → modRed (x + 37) = modRed x) ∧
  (∀ x y : Word, modRed x = modRed y ↔ (37 : Int) ∣ (x.toNat : Int) - (y.toNat : Int)) ∧
  (∀ r : TableAddress, ({x : Word | modRed x = r}).ncard = if r.val ≤ 6 then 116080198 else 116080197) ∧
  (∀ (fill : FillAddress → Fin 37) (x y : Word), modRed x = modRed y → computeWith fill x = computeWith fill y)

/-- R85: the bit-weight, byte-weight and 18-bit identities, with the bounds of the first two sums. -/
def Obligations.WeightIdentities : Prop :=
  ∀ x : Word,
    (let bitSum := ∑ i : Fin 32, (x.getLsbD i.val).toNat * (2 ^ i.val % 37)
     (modRed x).val = bitSum % 37 ∧ bitSum ≤ 598) ∧
    (let byteSum := (x.extractLsb' 0 8).toNat + 34 * (x.extractLsb' 8 8).toNat +
        9 * (x.extractLsb' 16 8).toNat + 10 * (x.extractLsb' 24 8).toNat
     (modRed x).val = byteSum % 37 ∧ byteSum ≤ 13770) ∧
    (modRed x).val = ((x.extractLsb' 0 18).toNat + 36 * (x.extractLsb' 18 14).toNat) % 37

/-- R88, with R87's two consequences: the remainders of the 32 domain words in order of k, pairwise distinct, none
of them k itself; each is twice the one before it modulo 37; the values of [0, 36] that do not appear, which are 0
and the remainders of the next four powers. -/
def Obligations.RemaindersOfTheDomainWords : Prop :=
  ((List.finRange 32).map fun k => (modRed (powerWord k.val)).val) =
    [1, 2, 4, 8, 16, 32, 27, 17, 34, 31, 25, 13, 26, 15, 30, 23, 9, 18, 36, 35, 33, 29, 21, 5, 10, 20, 3, 6, 12,
     24, 11, 22] ∧
  (∀ j k : Fin 32, modRed (powerWord j.val) = modRed (powerWord k.val) → j = k) ∧
  (∀ k : Fin 32, (modRed (powerWord k.val)).val ≠ k.val) ∧
  (∀ k : Nat, k < 31 → (modRed (powerWord (k + 1))).val = 2 * (modRed (powerWord k)).val % 37) ∧
  (∀ r : TableAddress, (∀ k : Fin 32, modRed (powerWord k.val) ≠ r) ↔ r.val ∈ [0, 7, 14, 19, 28]) ∧
  (List.range' 32 5).map (fun k => 2 ^ k % 37) = [7, 14, 28, 19, 1]

/-- R81, R89: `x mod 37` is the only function that a conforming modulo_reducer can compute: any function with the
defining property of the remainder is `modRed`. -/
def Obligations.RemainderFunctionIsUnique : Prop :=
  ∀ f : Word → TableAddress, (∀ x : Word, ∃ q : Nat, x.toNat = 37 * q + (f x).val) ↔ f = modRed

/-- R6: the audit of the literal 37, points (a) to (d). -/
def Obligations.ModulusAudit : Prop :=
  (∀ j k : Fin 32, modRed (powerWord j.val) = modRed (powerWord k.val) → j = k) ∧
  (∀ r : TableAddress, (∀ k : Fin 32, modRed (powerWord k.val) ≠ r) ↔ r.val ∈ [0, 7, 14, 19, 28]) ∧
  (∀ m : Nat, 1 ≤ m → m < Config.modulus → ¬ Function.Injective fun k : Fin 32 => 2 ^ k.val % m) ∧
  (∀ m : Nat, Config.modulus < m → m ≤ 67 →
    ((Function.Injective fun k : Fin 32 => 2 ^ k.val % m) ↔ m ∈ [53, 59, 61, 67])) ∧
  (∀ c : Nat, ¬ ∀ k : Fin 32, 2 ^ k.val % c = k.val)

/-! ## LOG2LUT (spec/41_log2_lookup_table.md) -/

/-- R100: LOG2LUT a drives `result_o` with the zero-extended entry at a, in [0, 36], with the rule's corner cases;
where a stands on the wire `rem`, as it always does in the hardware, it changes nothing. What stands on `bit_i`
elsewhere, the word of value a, is the model's choice, assumption log 7. -/
def Obligations.Log2lutReadsTheTable : Prop :=
  (∀ (a : TableAddress) (s : State), ∃ t, exec (.log2lut a) s = .next t ∧ t.remWire = a ∧
    t.resultO.extractLsb' 0 6 = romRead a ∧ t.resultO.extractLsb' 6 26 = 0 ∧ t.resultO.toNat ≤ 36 ∧
    (s.remWire = a → t = s) ∧ (s.remWire ≠ a → t.bitI = BitVec.ofNat 32 a.val)) ∧
  (∀ p ∈ ([(1, 0), (22, 31), (36, 18), (34, 8)] : List (TableAddress × Word)),
    ∀ s : State, ∃ t, exec (.log2lut p.1) s = .next t ∧ t.resultO = p.2) ∧
  (∀ p ∈ ([(0, .a0), (7, .a7), (14, .a14), (19, .a19), (28, .a28)] : List (TableAddress × FillAddress)),
    ∀ s : State, ∃ t, exec (.log2lut p.1) s = .next t ∧
      t.resultO = BitVec.ofNat 32 (Config.lutFill p.2).val)

/-- R101, R102: the contents of all 37 addresses, in an instance of any fill; the entry k stands at the remainder
of the domain word 2^k, and no other address has it as a fixed entry. -/
def Obligations.TableContents : Prop :=
  (∀ fill : FillAddress → Fin 37,
    ((List.finRange 37).map fun a => (romReadWith fill a).toNat) =
      [(fill .a0).val, 0, 1, 26, 2, 23, 27, (fill .a7).val, 3, 16, 24, 30, 28, 11, (fill .a14).val, 13, 4, 7, 17,
       (fill .a19).val, 25, 22, 31, 15, 29, 10, 12, 6, (fill .a28).val, 21, 14, 9, 5, 20, 8, 19, 18]) ∧
  (∀ (fill : FillAddress → Fin 37) (k : Fin 32), romReadWith fill (modRed (powerWord k.val)) = BitVec.ofNat 6 k.val) ∧
  (∀ (a : TableAddress) (k : Fin 32), lutEntry a = .fixed k ↔ a = modRed (powerWord k.val))

/-- R102, R103, R104, R106: the guarantee and the bound force the table up to its fill. A function of the address
is the read of an instance of exactly one fill if and only if it gives k at the remainder of every 2^k and is in
[0, 36] everywhere. -/
def Obligations.TableIsForcedUpToItsFill : Prop :=
  ∀ f : TableAddress → Code,
    ((∀ k : Fin 32, f (modRed (powerWord k.val)) = BitVec.ofNat 6 k.val) ∧ ∀ a, (f a).toNat ≤ 36) ↔
      ∃! fill : FillAddress → Fin 37, ∀ a, f a = romReadWith fill a

/-- R104: every entry is in [0, 36] and every fixed entry in [0, 31], in an instance of any fill, so the codes 37
to 63 never appear in the table or on `result_o[5:0]`. -/
def Obligations.EntryRange : Prop :=
  (∀ (fill : FillAddress → Fin 37) (a : TableAddress), (romReadWith fill a).toNat ≤ 36 ∧
    (isFillAddress a = false → (romReadWith fill a).toNat ≤ 31)) ∧
  (∀ s : State, ∃ t, step s = .next t ∧ (t.resultO.extractLsb' 0 6).toNat ≤ 36)

/-- R105: on the 32 reachable addresses the table is a bijection onto [0, 31]; over all 37 it need not be
injective, and the word on `result_o` need not tell whether the input was in the domain. -/
def Obligations.FixedPartIsABijection : Prop :=
  (∀ (fill : FillAddress → Fin 37) (a b : TableAddress), isFillAddress a = false → isFillAddress b = false →
    romReadWith fill a = romReadWith fill b → a = b) ∧
  (∀ (fill : FillAddress → Fin 37) (k : Fin 32), ∃ a, isFillAddress a = false ∧
    romReadWith fill a = BitVec.ofNat 6 k.val) ∧
  (∀ fill : FillAddress → Fin 37, fill .a0 = 0 → romReadWith fill 0 = romReadWith fill 1 ∧
    computeWith fill 0 = computeWith fill 1 ∧ IsDomainWord 1 ∧ ¬ IsDomainWord 0)

/-- R103: the fill addresses are 0, 7, 14, 19 and 28, no domain word selects one, and an instance may hold any
value of [0, 36] at each of them, independently of the others. -/
def Obligations.FillAddressesHoldTheParameter : Prop :=
  (∀ a : TableAddress, isFillAddress a = true ↔ a.val ∈ [0, 7, 14, 19, 28]) ∧
  (∀ x : Word, IsDomainWord x → isFillAddress (modRed x) = false) ∧
  (∀ v0 v7 v14 v19 v28 : Fin 37, ∃ fill : FillAddress → Fin 37,
    (romReadWith fill 0).toNat = v0.val ∧ (romReadWith fill 7).toNat = v7.val ∧
    (romReadWith fill 14).toNat = v14.val ∧ (romReadWith fill 19).toNat = v19.val ∧
    (romReadWith fill 28).toNat = v28.val)

/-- R103, R149: two instances differ on no word whose remainder is reachable; on every other word some two
instances differ. -/
def Obligations.FillMattersOnlyAtFillAddresses : Prop :=
  ∀ x : Word,
    (isFillAddress (modRed x) = false ↔
      ∀ fill fill' : FillAddress → Fin 37, computeWith fill x = computeWith fill' x)

/-! ## COMPUTE (spec/42_power_of_two_log.md) -/

/-- R120, R68: COMPUTE x has x on `bit_i` and drives both outputs, as MODRED and then LOG2LUT on its remainder; where x
stands on `bit_i` already, it changes nothing; the worked example. -/
def Obligations.ComputeIsReductionThenLookup : Prop :=
  (∀ (x : Word) (s : State), ∃ t, exec (.compute x) s = .next t ∧ t.bitI = x ∧
    t.remO = addressCode (modRed x) ∧ t.resultO = resultWord (romRead (modRed x))) ∧
  (∀ (x : Word) (s : State), ∃ t, exec (.modred x) s = .next t ∧
    exec (.compute x) s = exec (.log2lut (modRed x)) t) ∧
  (∀ s : State, exec (.compute s.bitI) s = .next s) ∧
  (∀ s : State, ∃ t, exec (.compute 0x20) s = .next t ∧ t.remO = 32 ∧ t.resultO = 5)

/-- R121: on every domain word the evaluation gives the exponent on `result_o` and 2^k mod 37 on `rem_o`, whatever
the ports carried before and in an instance of any fill. -/
def Obligations.ExactOnTheDomain : Prop :=
  ∀ k : Fin 32,
    (∀ s : State, ∃ t, step (s.present (powerWord k.val)) = .next t ∧
      t.resultO = BitVec.ofNat 32 k.val ∧ t.remO.toNat = 2 ^ k.val % 37) ∧
    (∀ fill : FillAddress → Fin 37, computeWith fill (powerWord k.val) = BitVec.ofNat 32 k.val)

/-- R122: every evaluation of every word, and every operation, answers a next state: no fault and no refusal. -/
def Obligations.EveryEvaluationCompletes : Prop :=
  (∀ s : State, Completes (step s)) ∧ (∀ (s : State) (x : Word), Completes (step (s.present x))) ∧
  (∀ (i : Instr) (s : State), Completes (exec i s))

/-- R123, R31: two blocks with one word on `bit_i` reach one and the same state, whatever their outputs carried;
and an operation performed before a word is presented leaves no trace in that word's evaluation. -/
def Obligations.OutputsDependOnTheWordAlone : Prop :=
  (∀ s s' : State, s.bitI = s'.bitI → ∃ t, step s = .next t ∧ step s' = .next t) ∧
  (∀ (i : Instr) (s t : State) (x : Word), exec i s = .next t → step (t.present x) = step (s.present x))

/-- R124: both outputs of every evaluation lie in [0, 36], and on a domain word `result_o` is at most 31. -/
def Obligations.OutputsAreBounded : Prop :=
  ∀ s : State, ∃ t, step s = .next t ∧ t.remO.toNat ≤ 36 ∧ t.resultO.toNat ≤ 36 ∧
    (IsDomainWord s.bitI → t.resultO.toNat ≤ 31)

/-- R125: the two cases of a word outside the domain, by the entry at its remainder, with their numbers of words and
their examples. That the first case's value is fixed follows this spec's structure and is no promise of the document,
assumption log 13. -/
def Obligations.NonDomainWords : Prop :=
  (∀ x : Word, isFillAddress (modRed x) = false → ∃ k : Fin 32, lutEntry (modRed x) = .fixed k ∧
    ∀ s : State, ∃ t, step (s.present x) = .next t ∧ t.resultO = BitVec.ofNat 32 k.val) ∧
  (∀ x : Word, isFillAddress (modRed x) = true → ∃ f : FillAddress, lutEntry (modRed x) = .fill f ∧
    ∀ s : State, ∃ t, step (s.present x) = .next t ∧ t.resultO = BitVec.ofNat 32 (Config.lutFill f).val) ∧
  (lutEntry 0 = .fill .a0 ∧ lutEntry 7 = .fill .a7 ∧ lutEntry 14 = .fill .a14 ∧ lutEntry 19 = .fill .a19 ∧
    lutEntry 28 = .fill .a28) ∧
  (∀ (x : Word) (s : State), ∃ t, step (s.present x) = .next t ∧ t.remO.toNat = x.toNat % 37) ∧
  ({x : Word | isFillAddress (modRed x) = true}).ncard = 580400986 ∧
  ({x : Word | isFillAddress (modRed x) = false ∧ ¬ IsDomainWord x}).ncard = 3714566278 ∧
  (∀ s : State, (∃ t, step (s.present 3) = .next t ∧ t.remO = 3 ∧ t.resultO = 26) ∧
    ∃ t, step (s.present 7) = .next t ∧ t.remO = 7 ∧ t.resultO = BitVec.ofNat 32 (Config.lutFill .a7).val)

/-- R126: zero is treated like any multiple of 37, and all ones gives the outputs of 2^27 (fixed by this spec's
structure, assumption log 13). -/
def Obligations.ZeroAndAllOnes : Prop :=
  ∀ s : State,
    (∃ t, step (s.present 0) = .next t ∧ t.remO = 0 ∧ t.resultO = BitVec.ofNat 32 (Config.lutFill .a0).val) ∧
    (∃ t, step (s.present 0xFFFFFFFF) = .next t ∧ t.remO = 6 ∧ t.resultO = 27) ∧
    (∃ t, step (s.present 0x08000000) = .next t ∧ t.remO = 6 ∧ t.resultO = 27)

/-- R127: a word with the remainder of 2^k gives exactly the outputs of 2^k (38 those of 1); for each k there are
116080196 or 116080197 such words outside the domain; a remainder at a fill address proves that the word was
outside the domain, and the converse fails. That such words have a fixed value is this spec's structure, assumption
log 13. -/
def Obligations.AliasesOfDomainWords : Prop :=
  (∀ (k : Fin 32) (x : Word) (s : State), modRed x = modRed (powerWord k.val) → ∃ t t',
    step (s.present x) = .next t ∧ step (s.present (powerWord k.val)) = .next t' ∧
    t.remO = t'.remO ∧ t.resultO = t'.resultO) ∧
  (∀ s : State, (∃ t, step (s.present 38) = .next t ∧ t.remO = 1 ∧ t.resultO = 0) ∧
    ∃ t, step (s.present 1) = .next t ∧ t.remO = 1 ∧ t.resultO = 0) ∧
  (∀ k : Fin 32, ({x : Word | modRed x = modRed (powerWord k.val) ∧ ¬ IsDomainWord x}).ncard =
    if 2 ^ k.val % 37 ≤ 6 then 116080197 else 116080196) ∧
  (∀ x : Word, isFillAddress (modRed x) = true → ¬ IsDomainWord x) ∧
  (∃ x : Word, ¬ IsDomainWord x ∧ isFillAddress (modRed x) = false)

/-- R129: after every evaluation `result_o[5:0]` is the table's entry at `rem_o` and `result_o[31:6]` is 0;
`rem_o` determines `result_o`; `result_o` determines `rem_o` where no fill entry repeats its value, and not where
one does. -/
def Obligations.RelationBetweenTheOutputs : Prop :=
  (∀ s : State, ∃ t, step s = .next t ∧ t.resultO.extractLsb' 6 26 = 0 ∧
    ∃ a : TableAddress, t.remO = addressCode a ∧ t.resultO.extractLsb' 0 6 = romRead a) ∧
  (∀ s s' t t' : State, step s = .next t → step s' = .next t' → t.remO = t'.remO → t.resultO = t'.resultO) ∧
  (∀ (fill : FillAddress → Fin 37) (x y : Word), computeWith fill x = computeWith fill y →
    (∀ f, (computeWith fill x).toNat ≠ (fill f).val) → modRed x = modRed y) ∧
  (∀ (fill : FillAddress → Fin 37) (f : FillAddress), (fill f).val ≤ 31 →
    ∃ x y : Word, computeWith fill x = computeWith fill y ∧ modRed x ≠ modRed y)

/-! ## The ports: what drives them, and their ranges in every state -/

/-- R25, R32, R128: no step drives the input port, and an operation leaves on it the word that stood there, or its own
operand where that was presented (R68, assumption log 7). -/
def Obligations.NothingDrivesTheInputPort : Prop :=
  (∀ s t : State, step s = .next t → t.bitI = s.bitI) ∧
  (∀ (i : Instr) (s t : State), exec i s = .next t → t.bitI = s.bitI ∨ i = .modred t.bitI ∨
    i = .compute t.bitI ∨ ∃ a : TableAddress, i = .log2lut a ∧ t.bitI = BitVec.ofNat 32 a.val)

/-- R32, R161: at power-up the outputs carry the values of the word on `bit_i` and are within their ranges (which
word that is, assumption log 3, is the model's choice). -/
def Obligations.ResetOutputsFollowTheInput : Prop :=
  State.reset.Settled ∧ State.reset.Bounded ∧ State.reset.Exact

/-- R27, R28: in every state, reached or not, the outputs carry the values of the word on `bit_i`, are within their
ranges, and are exact on the domain; and so they do for a word newly presented, after the step that evaluates it. -/
def Obligations.EveryStepKeepsTheOutputsSettled : Prop :=
  (∀ s : State, s.Settled ∧ s.Bounded ∧ s.Exact) ∧
  (∀ (s : State) (x : Word), ∃ t, step (s.present x) = .next t ∧ t.bitI = x ∧ t.Settled ∧ t.Bounded ∧ t.Exact)

/-- R27, R28, R80, R100, R104, R120: every operation answers a next state, with the remainder of its operand, or its
address, on the wire `rem` and on `rem_o`, and with both outputs within their ranges. -/
def Obligations.EveryOperationKeepsTheRanges : Prop :=
  ∀ (i : Instr) (s : State), ∃ t, exec i s = .next t ∧ t.Bounded ∧
    t.remO.toNat = (match i with
      | .modred x => x.toNat % 37 | .log2lut a => a.val | .compute x => x.toNat % 37)

/-- R20, R31, R123, R128: each operation on the word its site carries changes nothing, and neither does a step nor a
repeated one. -/
def Obligations.SettledBlockIsAFixedPoint : Prop :=
  (∀ s : State, exec (.modred s.bitI) s = .next s ∧ exec (.log2lut s.remWire) s = .next s ∧
    exec (.compute s.bitI) s = .next s ∧ step s = .next s) ∧
  (∀ s t : State, step s = .next t → step t = .next t)

/-! ## Runs (spec/70_reset_and_hazards.md) -/

/-- R123, R164, R167: a run of any lines from any state observes of each line what that line alone gives, for
words the output pair of the word, whatever came before it (R68 for what a `modred` line observes; what a `log2lut` line
observes is the model's choice, assumption log 11). -/
def Obligations.RunObservesEachLineAlone : Prop :=
  ∃ view : Instr → Observation,
    (∀ (lines : List Instr) (s : State), observe lines s = some (lines.map view)) ∧
    (∀ x : Word, view (.compute x) =
      { rem := some (addressCode (modRed x)), result := some (computeWith Config.lutFill x) }) ∧
    (∀ x : Word, view (.modred x) = { rem := some (addressCode (modRed x)), result := none }) ∧
    (∀ a : TableAddress, view (.log2lut a) = { rem := none, result := some (resultWord (romRead a)) })

/-- R47: a run of the same lines in another order, started from another state, gives every line the same observation
(what a `log2lut` line observes is the model's choice, assumption log 11). -/
def Obligations.ReorderedRunReordersTheObservation : Prop :=
  ∀ (lines lines' : List Instr) (s s' : State), lines.Perm lines' →
    ∃ os os', observe lines s = some os ∧ observe lines' s' = some os' ∧ os.length = lines.length ∧
      os'.length = lines'.length ∧ (lines.zip os).Perm (lines'.zip os')

/-- R68: `modred x` is the same presentation as `compute x`, observing `rem_o` only: the two lines leave one state
and agree on `rem_o`. -/
def Obligations.ModredLineIsTheSamePresentation : Prop :=
  ∀ (x : Word) (s : State), ∃ o o' t, evaluate (.compute x) s = some (o, t) ∧
    evaluate (.modred x) s = some (o', t) ∧ o'.rem = o.rem ∧ o.rem = some t.remO ∧
    o.result = some t.resultO ∧ o'.result = none

/-! ## Statelessness (spec/10_state.md) -/

/-- R20, R33: the stored state has one value, a state is nothing beyond its input word, the outputs at any instant are
a function of the input word at that instant alone, and a step is R33's function: no state, one word in, the pair
out, no way to fail. That the input word stands in State is the model's choice, assumption log 2. -/
def Obligations.BlockStoresNothing : Prop :=
  (∀ q q' : Stored, q = q') ∧
  (∀ s s' : State, s.bitI = s'.bitI → s = s' ∧ s.remO = s'.remO ∧ s.resultO = s'.resultO) ∧
  (∀ s : State, ∃ t, step s = .next t ∧ (t.stored, t.remO, t.resultO) = blockStep s.stored s.bitI)
end

