-- ==== Sys2Proof/Laws/Config.lean ====
section
/-! SUPPORT. The parameters as numerals, and their relations (spec/00_scope.md R5). -/

namespace Sys2Proof.Config

@[simp] theorem inWidth_eq : inWidth = 32 := rfl
@[simp] theorem modulus_eq : modulus = 37 := rfl
@[simp] theorem remWidth_eq : remWidth = 6 := rfl
@[simp] theorem lutDepth_eq : lutDepth = 37 := rfl
@[simp] theorem lutSpecified_eq : lutSpecified = 32 := rfl
@[simp] theorem lutWidth_eq : lutWidth = 6 := rfl
@[simp] theorem outWidth_eq : outWidth = 32 := rfl

/-- `REM_W` is the least width that holds every remainder (R5). -/
theorem remWidth_least : modulus ≤ 2 ^ remWidth ∧ 2 ^ (remWidth - 1) < modulus := by decide

end Sys2Proof.Config
end

