-- ==== Sys2Proof/Laws/Datapath.lean ====
section
/-! SUPPORT. One specification lemma per function of the datapath: the codes, the remainder, the table. -/

namespace Sys2Proof.Machine

/-- A remainder fits its 6-bit code. -/
@[simp] theorem addressCode_toNat (a : TableAddress) : (addressCode a).toNat = a.val := by
  have := a.isLt
  simp only [addressCode, BitVec.toNat_ofNat]
  omega

theorem addressCode_injective : Function.Injective addressCode := by
  intro a b h
  exact Fin.ext (by simpa using congrArg BitVec.toNat h)

/-- A code names the address that it is the code of, and the codes 37 to 63 name none. -/
theorem codeAddress_eq_some {c : Code} {a : TableAddress} :
    codeAddress c = some a ↔ c.toNat = a.val := by
  have := a.isLt
  unfold codeAddress
  split
  · simp [Fin.ext_iff]
  · simp; omega

@[simp] theorem codeAddress_addressCode (a : TableAddress) : codeAddress (addressCode a) = some a :=
  codeAddress_eq_some.mpr (addressCode_toNat a)

theorem codeAddress_eq_none {c : Code} : codeAddress c = none ↔ 37 ≤ c.toNat := by
  unfold codeAddress
  split <;> simp <;> omega

/-- Zero extension keeps the value. -/
@[simp] theorem resultWord_toNat (v : Code) : (resultWord v).toNat = v.toNat := by
  have := v.isLt
  simp only [resultWord, BitVec.toNat_setWidth]
  omega

theorem resultWord_injective : Function.Injective resultWord := by
  intro a b h
  exact BitVec.eq_of_toNat_eq (by simpa using congrArg BitVec.toNat h)

/-- `result_o[5:0]` is the entry read (spec/30_encoding.md R63). -/
@[simp] theorem resultWord_low (v : Code) : (resultWord v).extractLsb' 0 6 = v := by
  have := v.isLt
  exact BitVec.eq_of_toNat_eq (by simp; omega)

/-- `result_o[31:6]` is 0 (spec/30_encoding.md R63). -/
@[simp] theorem resultWord_high (v : Code) : (resultWord v).extractLsb' 6 26 = 0 := by
  have := v.isLt
  exact BitVec.eq_of_toNat_eq (by simp [Nat.shiftRight_eq_div_pow]; omega)

@[simp] theorem modRed_val (x : Word) : (modRed x).val = x.toNat % 37 := rfl

/-- A word of value 0 to 36 is its own remainder. -/
theorem modRed_ofNat_of_lt {n : Nat} (h : n < 37) : (modRed (BitVec.ofNat 32 n)).val = n := by
  simp only [modRed_val, BitVec.toNat_ofNat]
  omega

/-- The word `1 << k` has the value 2^k. -/
theorem powerWord_toNat {k : Nat} (h : k < 32) : (powerWord k).toNat = 2 ^ k := by
  have : 2 ^ k < 2 ^ 32 := Nat.pow_lt_pow_right (by decide) h
  simpa [powerWord, Nat.shiftLeft_eq] using this

/-- A fill address is one whose entry is a fill entry. -/
theorem isFillAddress_eq_true {a : TableAddress} :
    isFillAddress a = true ↔ ∃ f, lutEntry a = .fill f := by
  unfold isFillAddress
  split <;> simp_all

/-- A reachable address is one whose entry the contract fixes. -/
theorem isFillAddress_eq_false {a : TableAddress} :
    isFillAddress a = false ↔ ∃ k, lutEntry a = .fixed k := by
  unfold isFillAddress
  split <;> simp_all

/-- Where the contract fixes the entry, an instance's fill plays no part. -/
theorem romReadWith_of_fixed {a : TableAddress} {k : Fin 32} (h : lutEntry a = .fixed k)
    (fill : FillAddress → Fin 37) : romReadWith fill a = BitVec.ofNat 6 k.val := by
  simp [romReadWith, h, LutEntry.code]

/-- A fill address reads as the instance's fill. -/
theorem romReadWith_of_fill {a : TableAddress} {f : FillAddress} (h : lutEntry a = .fill f)
    (fill : FillAddress → Fin 37) : romReadWith fill a = BitVec.ofNat 6 (fill f).val := by
  simp [romReadWith, h, LutEntry.code]

theorem LutEntry.code_fixed_toNat (fill : FillAddress → Fin 37) (k : Fin 32) :
    ((LutEntry.fixed k).code fill).toNat = k.val := by
  have := k.isLt
  simp only [LutEntry.code, BitVec.toNat_ofNat]
  omega

theorem LutEntry.code_fill_toNat (fill : FillAddress → Fin 37) (f : FillAddress) :
    ((LutEntry.fill f).code fill).toNat = (fill f).val := by
  have := (fill f).isLt
  simp only [LutEntry.code, BitVec.toNat_ofNat]
  omega

end Sys2Proof.Machine
end

