-- ==== Sys2Proof/Laws/State.lean ====
section
/-! SUPPORT. What each operation over the ports leaves on each port, and that there is nothing else to a
state than its input word. -/

namespace Sys2Proof.Machine

/-- A state is its input word: the stored part has one value. -/
@[ext] theorem State.ext_bitI {s t : State} (h : s.bitI = t.bitI) : s = t := by
  cases s; cases t; cases h; rfl

variable (s : State) (x : Word) (a : TableAddress)

@[simp] theorem State.present_stored : (s.present x).stored = s.stored := rfl
@[simp] theorem State.present_bitI : (s.present x).bitI = x := rfl
@[simp] theorem State.remWire_present : (s.present x).remWire = modRed x := rfl
@[simp] theorem State.remO_present : (s.present x).remO = addressCode (modRed x) := rfl
@[simp] theorem State.resultO_present : (s.present x).resultO = resultWord (romRead (modRed x)) := rfl

/-- Presenting a second word is presenting it alone. -/
@[simp] theorem State.present_present (y : Word) : (s.present x).present y = s.present y := rfl

/-- Presenting the word already present changes nothing. -/
@[simp] theorem State.present_self : s.present s.bitI = s := rfl

/-- A word of value `a` reaches the address `a` (spec/40_modulo_reducer.md R83). -/
@[simp] theorem modRed_ofNat_address : modRed (BitVec.ofNat 32 a.val) = a :=
  Fin.ext (modRed_ofNat_of_lt a.isLt)

@[simp] theorem State.presentAddress_stored : (s.presentAddress a).stored = s.stored := rfl

theorem State.presentAddress_of_carried (h : s.remWire = a) : s.presentAddress a = s := if_pos h

theorem State.presentAddress_of_not_carried (h : s.remWire ≠ a) :
    s.presentAddress a = s.present (BitVec.ofNat 32 a.val) := if_neg h

@[simp] theorem State.remWire_presentAddress : (s.presentAddress a).remWire = a := by
  by_cases h : s.remWire = a
  · rwa [s.presentAddress_of_carried a h]
  · rw [s.presentAddress_of_not_carried a h, State.remWire_present, modRed_ofNat_address]

@[simp] theorem State.remO_presentAddress : (s.presentAddress a).remO = addressCode a := by
  rw [State.remO, State.remWire_presentAddress]

@[simp] theorem State.resultO_presentAddress : (s.presentAddress a).resultO = resultWord (romRead a) := by
  rw [State.resultO, State.remWire_presentAddress]

end Sys2Proof.Machine
end

