-- ==== Sys2Proof/Laws/Exec.lean ====
section
/-! SUPPORT. Everything an operation can do, said once: its outcome is this next state and no other. -/

namespace Sys2Proof.Machine

theorem exec_modred (x : Word) (s : State) : exec (.modred x) s = .next (s.present x) := rfl

theorem exec_log2lut (a : TableAddress) (s : State) : exec (.log2lut a) s = .next (s.presentAddress a) := rfl

theorem exec_compute (x : Word) (s : State) : exec (.compute x) s = .next (s.present x) := rfl

/-- The inversion of `exec`: which next state each operation answers. -/
theorem exec_next_cases {i : Instr} {s t : State} (h : exec i s = .next t) :
    (∃ x, i = .modred x ∧ t = s.present x) ∨ (∃ a, i = .log2lut a ∧ t = s.presentAddress a) ∨
    (∃ x, i = .compute x ∧ t = s.present x) := by
  cases i with
  | modred x => exact .inl ⟨x, rfl, (Host.Outcome.next.inj h).symm⟩
  | log2lut a => exact .inr (.inl ⟨a, rfl, (Host.Outcome.next.inj h).symm⟩)
  | compute x => exact .inr (.inr ⟨x, rfl, (Host.Outcome.next.inj h).symm⟩)

end Sys2Proof.Machine
end

