-- ==== Sys2Proof/Laws/PerInstr.lean ====
section
/-! SUPPORT. Families of statements about every operation as syntax, one lemma per constructor. -/

namespace Sys2Proof.Laws

/-- The operand word of an operation has the format of the operation's site (spec/30_encoding.md R65). -/
def EncodesInSiteFormat.Statement (i : Instr) : Prop := (encode i).format = i.site.format

theorem EncodesInSiteFormat.modred (x : Word) : EncodesInSiteFormat.Statement (.modred x) := rfl

theorem EncodesInSiteFormat.log2lut (a : TableAddress) : EncodesInSiteFormat.Statement (.log2lut a) := rfl

theorem EncodesInSiteFormat.compute (x : Word) : EncodesInSiteFormat.Statement (.compute x) := rfl

end Sys2Proof.Laws
end

