-- ==== Sys2Proof/Laws/Step.lean ====
section
/-! SUPPORT. Everything a step and a line of a run can do, said once. -/

namespace Sys2Proof.Machine

/-- A step stores nothing: its output stands on the ports, as functions of the word on `bit_i`. -/
theorem step_next (s : State) : step s = .next s := rfl

/-- The inversion of `step`. -/
theorem step_next_iff {s t : State} : step s = .next t ↔ t = s := by
  rw [step_next, Host.Outcome.next.injEq, eq_comm]

/-- After a step the stored state and the ports are what R33's function of the input word gives. -/
theorem step_is_blockStep (s : State) : (s.stored, s.remO, s.resultO) = blockStep s.stored s.bitI := rfl

theorem evaluate_compute (x : Word) (s : State) :
    evaluate (.compute x) s =
      some (⟨some (addressCode (modRed x)), some (resultWord (romRead (modRed x)))⟩, s.present x) := rfl

theorem evaluate_modred (x : Word) (s : State) :
    evaluate (.modred x) s = some (⟨some (addressCode (modRed x)), none⟩, s.present x) := rfl

theorem evaluate_log2lut (a : TableAddress) (s : State) :
    evaluate (.log2lut a) s = some (⟨none, some (resultWord (romRead a))⟩, s.presentAddress a) := by
  rw [← s.resultO_presentAddress a]; rfl

/-- A table row's word stands on `bit_i`, whatever its width. -/
theorem withFetchWord_eq (s : State) (nbits w : Nat) :
    s.withFetchWord nbits w = s.present (BitVec.ofNat 32 w) := rfl

end Sys2Proof.Machine
end

