-- ==== Sys2Proof/Tests/Slice0.lean ====
section
/-! SUPPORT. The model's own tests: the range checks, words written out from the spec's encodings, the spec's
worked values, and a witness for the hypotheses of each statement. Expected values come from
spec/95_test_vectors.md and the rules named. -/

namespace Sys2Proof.Tests

open Sys2Proof Sys2Proof.Machine

/-- The ports after an outcome, if it is a next state. -/
def ports : Host.Outcome State Fault Refusal → Option (Word × Code × Word)
  | .next t => some (t.bitI, t.remO, t.resultO)
  | .fault _ => none
  | .refused _ => none

/-- The block with a word present. -/
def withWord (x : Word) : State := { bitI := x }

/-! ## WellFormed refuses an ill-formed term of each check (R68, R69, R62, R65) -/

theorem test_compute_operand_too_wide : Line.wellFormed ⟨.compute, .value (2 ^ 32)⟩ = false := by decide
theorem test_modred_operand_too_wide : Line.wellFormed ⟨.modred, .value (2 ^ 32)⟩ = false := by decide
theorem test_log2lut_address_37 : Line.wellFormed ⟨.log2lut, .value 37⟩ = false := by decide
theorem test_shift_by_32 : Line.wellFormed ⟨.compute, .oneShiftedLeft 32⟩ = false := by decide
theorem test_pow2_32 : SourceLine.wellFormed (.pow2 32) = false := by decide
theorem test_word_at_table : PortWord.wellFormedAt .log2LookupTable (.w32 5) = false := by decide
theorem test_code_at_reducer : PortWord.wellFormedAt .moduloReducer (.a6 5) = false := by decide
theorem test_code_37_at_table : PortWord.wellFormedAt .log2LookupTable (.a6 37) = false := by decide
theorem test_in_range_lines :
    Line.wellFormed ⟨.compute, .value (2 ^ 32 - 1)⟩ = true ∧ Line.wellFormed ⟨.log2lut, .value 36⟩ = true ∧
    Line.wellFormed ⟨.modred, .oneShiftedLeft 31⟩ = true := by decide

/-! ## Decoding words written out from R61 and R62 -/

theorem test_decode_modred :
    decode .moduloReducer (.w32 0b11011110101011011011111011101111) = .ok (.modred 0xDEADBEEF) := rfl
theorem test_decode_log2lut : decode .log2LookupTable (.a6 0b100100) = .ok (.log2lut 36) := rfl
theorem test_decode_compute :
    decode .powerOfTwoLog (.w32 0b00000000000000000000000000100000) = .ok (.compute 32) := rfl
theorem test_decode_code_37 : decode .log2LookupTable (.a6 0b100101) = .error (.neverProduced 37) := rfl
theorem test_decode_table_word_compute : decodeTableWord 32 0x80000000 = some (.compute 0x80000000) := by decide
theorem test_decode_table_word_log2lut : decodeTableWord 8 0b00100010 = some (.log2lut 34) := by decide
theorem test_decode_table_word_code_63 : decodeTableWord 8 63 = none := by decide
theorem test_assemble_driver_line_31 : Line.assemble (pow2Line 31) = some (.compute 0x80000000) := by decide

/-! ## The operations (95_test_vectors.md V2, V3, V4) -/

/-- V2: 0xFFFFFFF8 gives 36. -/
theorem test_modred_top : (ports (exec (.modred 0xFFFFFFF8) (withWord 9))).map (·.2.1) = some 36 := by decide
/-- V2: 37 wraps to 0. -/
theorem test_modred_wraps : (ports (exec (.modred 37) (withWord 9))).map (·.2.1) = some 0 := by decide
/-- V4: the largest address, 36, reads 18, and the smallest word that reaches it is 36. -/
theorem test_log2lut_36 : ports (exec (.log2lut 36) (withWord 9)) = some (36, 36, 18) := by decide
/-- V3: 96 reaches address 22, which reads 31 (V4), and stays on `bit_i`. -/
theorem test_log2lut_22_carried : ports (exec (.log2lut 22) (withWord 96)) = some (96, 22, 31) := by decide
/-- V3: 0x12345678 gives 29 and 21. -/
theorem test_compute_12345678 :
    ports (exec (.compute 0x12345678) (withWord 9)) = some (0x12345678, 29, 21) := by decide
/-- V3: 96 gives 22 and 31, not the position of its highest set bit. -/
theorem test_compute_96 : ports (exec (.compute 96) (withWord 9)) = some (96, 22, 31) := by decide

/-! ## The step and power-up -/

/-- V1, line 31: 0x80000000 gives 22 and 31. -/
theorem test_step_evaluates_the_word_present :
    ports (step (State.reset.withFetchWord 32 0x80000000)) = some (0x80000000, 22, 31) := by decide
/-- V4: address 3 on the wire `rem` reads 26; the word 3 stands on `bit_i`. -/
theorem test_step_evaluates_the_address_present :
    ports (step (State.reset.withFetchWord 8 3)) = some (3, 3, 26) := by decide
/-- R32: `rem_o` at power-up is `bit_i mod 37`. -/
theorem test_reset_rem : State.reset.remO.toNat = State.reset.bitI.toNat % 37 := by decide
/-- P4, line 0 and then line 8 of P3: a line's view. -/
theorem test_line_views :
    (evaluate (.compute 36) (withWord 9)).map Prod.fst = some ⟨some 36, some 18⟩ ∧
    (evaluate (.modred 0x40000) (withWord 9)).map Prod.fst = some ⟨some 36, none⟩ ∧
    (evaluate (.log2lut 34) (withWord 9)).map Prod.fst = some ⟨none, some 8⟩ := by decide

/-! ## Witnesses: the hypotheses of each statement can be met -/

theorem witness_DecodedWordIsTheEncoding :
    decode .log2LookupTable (.a6 36) = .ok (.log2lut 36) ∧ decode .moduloReducer (.w32 7) = .ok (.modred 7) :=
  ⟨rfl, rfl⟩

theorem witness_DecoderAcceptsExactlyTheSiteWords :
    37 ≤ (37 : Code).toNat ∧ 37 ≤ (63 : Code).toNat ∧ (PortWord.a6 5).format ≠ Site.powerOfTwoLog.format ∧
    (PortWord.w32 5).format ≠ Site.log2LookupTable.format := by decide

theorem witness_TableWordRunsInTheNextStep :
    decodeTableWord 8 36 = some (.log2lut 36) ∧ decodeTableWord 32 (2 ^ 32 - 1) = some (.compute 0xFFFFFFFF) := by
  decide

theorem witness_LinesAssembleExactlyInRange :
    Line.wellFormed ⟨.log2lut, .oneShiftedLeft 5⟩ = true ∧ Line.wellFormed ⟨.log2lut, .oneShiftedLeft 6⟩ = false := by
  decide

theorem witness_PseudoOperationsExpand : (31 : Nat) ≤ 31 := by decide

theorem witness_StepRunsTheDecodedOperation :
    decode .powerOfTwoLog (.w32 (withWord 7).bitI) = .ok (.compute 7) := rfl

theorem witness_ModredDrivesTheRemainder : (36 : Word).toNat ≤ 36 := by decide

theorem witness_RemainderRange : (36 : Nat) ≤ 36 := by decide

theorem witness_SmallOperandsAndMultiples : (36 : Word).toNat ≤ 36 ∧ IsDomainWord 0x80000000 := by decide

theorem witness_PeriodicityAndCounts :
    (0xFFFFFFDA : Word).toNat + 37 < 2 ^ 32 ∧ modRed 38 = modRed 1 := by decide

theorem witness_RemaindersOfTheDomainWords :
    modRed (powerWord (31 : Fin 32).val) = modRed (powerWord (31 : Fin 32).val) ∧ (30 : Nat) < 31 := by decide

theorem witness_ModulusAudit :
    (1 ≤ 36 ∧ 36 < Config.modulus) ∧ (Config.modulus < 38 ∧ 38 ≤ 67) ∧ (Config.modulus < 67 ∧ 67 ≤ 67) := by decide

theorem witness_EntryRange : isFillAddress 36 = false := by decide

theorem witness_FixedPartIsABijection :
    (isFillAddress 36 = false ∧ ∀ fill, romReadWith fill 36 = romReadWith fill 36) ∧
    ∃ fill : FillAddress → Fin 37, fill .a0 = 0 :=
  ⟨⟨by decide, fun _ => rfl⟩, fun _ => 0, rfl⟩

theorem witness_FillAddressesHoldTheParameter : IsDomainWord 1 ∧ IsDomainWord 0x80000000 := by decide

theorem witness_OutputsDependOnTheWordAlone :
    (withWord 5).bitI = (State.reset.present 5).bitI ∧
    exec (.log2lut 36) (withWord 5) = .next (withWord 36) := ⟨rfl, rfl⟩

theorem witness_OutputsAreBounded : IsDomainWord (withWord 0x80000000).bitI := by decide

theorem witness_NonDomainWords : isFillAddress (modRed 3) = false ∧ isFillAddress (modRed 7) = true := by decide

theorem witness_AliasesOfDomainWords :
    modRed 0xFFFFFFFF = modRed (powerWord (27 : Fin 32).val) ∧ isFillAddress (modRed 0xFFFFFFF9) = true := by decide

theorem witness_RelationBetweenTheOutputs :
    (∃ t t', step (withWord 1) = .next t ∧ step (withWord 38) = .next t' ∧ t.remO = t'.remO) ∧
    (computeWith (fun _ => 36) 1 = computeWith (fun _ => 36) 38 ∧
      ∀ f : FillAddress, (computeWith (fun _ => 36) 1).toNat ≠ ((fun _ => 36 : FillAddress → Fin 37) f).val) ∧
    ((fun _ => 31 : FillAddress → Fin 37) .a28).val ≤ 31 :=
  ⟨⟨_, _, rfl, rfl, rfl⟩, ⟨by decide, fun f => by cases f <;> decide⟩, by decide⟩

theorem witness_NothingDrivesTheInputPort :
    step (withWord 38) = .next (withWord 38) ∧ exec (.modred 38) (withWord 1) = .next (withWord 38) ∧
    exec (.log2lut 36) (withWord 1) = .next (withWord 36) ∧ exec (.compute 7) (withWord 1) = .next (withWord 7) :=
  ⟨rfl, rfl, rfl, rfl⟩

theorem witness_Log2lutReadsTheTable : (withWord 38).remWire = 1 ∧ (withWord 38).remWire ≠ 36 := by decide

/-- The hypothesis of `Exact`, at the largest exponent, and what it concludes there. -/
theorem witness_EveryStepKeepsTheOutputsSettled :
    (withWord 0x80000000).bitI = powerWord (31 : Fin 32).val ∧ (withWord 0x80000000).resultO = 31 := by decide

theorem witness_SettledBlockIsAFixedPoint : step (withWord 7) = .next (withWord 7) := rfl

theorem witness_BlockStoresNothing : (withWord 7).bitI = (State.reset.present 7).bitI := rfl

theorem witness_ReorderedRunReordersTheObservation :
    List.Perm [Instr.compute 1, Instr.compute 0] [Instr.compute 0, Instr.compute 1] := by decide

end Sys2Proof.Tests
end

/-! ## The scope (spec/00_scope.md): the audit of the modulus, and the step -/

namespace Sys2Proof.Scope

open Sys2Proof Sys2Proof.Machine

/-! ### The remainders of the powers of two by a modulus -/

/-- R6: the modulus `m` tells 2^0 to 2^31 apart, which is the document's test of the literal 37. -/
abbrev SeparatesPowers (m : Nat) : Prop := Function.Injective fun k : Fin 32 => 2 ^ k.val % m

/-- Modulo an odd number a repeated power can be divided by its first occurrence, so that the repetition is one of
2^0. -/
theorem pow_sub_mod_eq_one_of_odd {m j k : Nat} (hm : Odd m) (hjk : j ≤ k) (h : 2 ^ j % m = 2 ^ k % m) :
    2 ^ (k - j) % m = 1 % m := by
  have hcop : m.Coprime (2 ^ j) := (Nat.coprime_two_right.mpr hm).pow_right j
  have hmul : 2 ^ j * 2 ^ (k - j) ≡ 2 ^ j * 1 [MOD m] := by
    rw [← pow_add, Nat.add_sub_cancel' hjk, mul_one]
    exact h.symm
  exact Nat.ModEq.cancel_left_of_coprime hcop hmul

/-- An odd modulus by which none of 2^1 to 2^31 is 1 separates the powers. -/
theorem separatesPowers_of_odd {m : Nat} (hm : Odd m) (hne : ∀ p ∈ List.range' 1 31, 2 ^ p % m ≠ 1 % m) :
    SeparatesPowers m := by
  refine .of_lt_imp_ne fun j k hjk h => ?_
  have hrange : k.val - j.val ∈ List.range' 1 31 := List.mem_range'_1.mpr (by omega)
  exact hne _ hrange (pow_sub_mod_eq_one_of_odd hm hjk.le h)

/-- The moduli up to 67 that separate the powers (R6 points (a) and (c)). -/
def validModuli : List Nat := [37, 53, 59, 61, 67]

/-- Each is odd, and the order of 2 by it is above 31. -/
theorem separatesPowers_of_mem {m : Nat} (h : m ∈ validModuli) : SeparatesPowers m := by
  have hodd : ∀ m ∈ validModuli, Odd m := by decide
  have horder : ∀ m ∈ validModuli, ∀ p ∈ List.range' 1 31, 2 ^ p % m ≠ 1 % m := by decide
  exact separatesPowers_of_odd (hodd m h) (horder m h)

/-- Pairs of exponents such that every other modulus from 1 to 67 gives one remainder to some pair. By 29, 43 and 58
the powers have, from 2^1 at the latest, a period that divides 28; by every other such modulus they have, from 2^6 at
the latest, a period that divides the difference of one of the first six pairs. -/
def collidingExponents : List (Fin 32 × Fin 32) :=
  [(6, 24), (6, 26), (6, 27), (6, 28), (6, 29), (6, 30), (1, 29)]

/-- The exhaustive computation of R6 point (c). -/
theorem exists_collision_of_not_mem :
    ∀ m ∈ List.range' 1 67, m ∉ validModuli →
      ∃ p ∈ collidingExponents, p.1 < p.2 ∧ 2 ^ p.1.val % m = 2 ^ p.2.val % m := by
  decide

/-- A modulus from 1 to 67 separates the powers exactly where it is one of the five. -/
theorem separatesPowers_iff {m : Nat} (hpos : 1 ≤ m) (hle : m ≤ 67) : SeparatesPowers m ↔ m ∈ validModuli := by
  refine ⟨fun hinj => ?_, separatesPowers_of_mem⟩
  by_contra hm
  have hrange : m ∈ List.range' 1 67 := List.mem_range'_1.mpr ⟨hpos, by omega⟩
  obtain ⟨p, _, hlt, hcoll⟩ := exists_collision_of_not_mem m hrange hm
  exact hlt.ne (hinj hcoll)

/-- R6 point (d): no remainder by a constant is the exponent itself, since 2^0 needs the constant 1 and 2^1 then
fails. -/
theorem no_modulus_gives_the_exponent (c : Nat) : ¬ ∀ k : Fin 32, 2 ^ k.val % c = k.val := by
  intro h
  have hzero : 1 % c = 0 := h 0
  have hone : 2 % c = 1 := h 1
  have hc : c = 1 := Nat.dvd_one.mp (Nat.dvd_of_mod_eq_zero hzero)
  subst hc
  exact absurd hone (by decide)

/-! ### The remainders of the domain words -/

/-- The remainder of `1 << k`, without the word. -/
theorem modRed_powerWord_val {k : Nat} (h : k < 32) : (modRed (powerWord k)).val = 2 ^ k % 37 := by
  rw [modRed_val, powerWord_toNat h]

/-- R6 point (a): 37 tells the domain words apart. -/
theorem modRed_powerWord_injective : Function.Injective fun k : Fin 32 => modRed (powerWord k.val) := by
  intro j k h
  have hval : (modRed (powerWord j.val)).val = (modRed (powerWord k.val)).val := congrArg Fin.val h
  rw [modRed_powerWord_val j.isLt, modRed_powerWord_val k.isLt] at hval
  exact separatesPowers_of_mem (m := 37) (by decide) hval

/-- R102: the table's entry at the remainder of 2^k is k. -/
theorem lutEntry_modRed_powerWord (k : Fin 32) : lutEntry (modRed (powerWord k.val)) = .fixed k := by
  revert k
  decide

/-- R103: the addresses that are not fill addresses are the remainders of the domain words. -/
theorem exists_powerWord_iff (r : TableAddress) :
    (∃ k : Fin 32, modRed (powerWord k.val) = r) ↔ isFillAddress r = false := by
  constructor
  · rintro ⟨k, rfl⟩
    exact isFillAddress_eq_false.mpr ⟨k, lutEntry_modRed_powerWord k⟩
  · revert r
    decide

/-- R103: the fill addresses by number. -/
theorem isFillAddress_iff_mem (r : TableAddress) : isFillAddress r = true ↔ r.val ∈ [0, 7, 14, 19, 28] := by
  revert r
  decide

/-- R6 point (b): the values of [0, 36] that no domain word takes. -/
theorem not_remainder_of_powerWord_iff (r : TableAddress) :
    (∀ k : Fin 32, modRed (powerWord k.val) ≠ r) ↔ r.val ∈ [0, 7, 14, 19, 28] := by
  rw [← isFillAddress_iff_mem, ← Bool.not_eq_false, ← exists_powerWord_iff, not_exists]

/-- Settles O18: one audit of the moduli 1 to 67 serves points (a) and (c), and the table's fill addresses are those
of point (b). -/
theorem modulusAudit : Obligations.ModulusAudit := by
  refine ⟨fun j k h => modRed_powerWord_injective h, not_remainder_of_powerWord_iff, ?smaller, ?larger,
    no_modulus_gives_the_exponent⟩
  case smaller =>
    intro m hpos hlt hinj
    rw [Config.modulus_eq] at hlt
    have hmem : m ∈ validModuli := (separatesPowers_iff hpos (by omega)).mp hinj
    have hge : ∀ m ∈ validModuli, 37 ≤ m := by decide
    exact absurd hlt (Nat.not_lt.mpr (hge m hmem))
  case larger =>
    intro m hlt hle
    rw [Config.modulus_eq] at hlt
    have hne : m ≠ 37 := by omega
    simpa [validModuli, hne] using separatesPowers_iff (m := m) (by omega) hle

/-! ### The step -/

/-- R10, R65: what the decoder reads at the block from the word on `bit_i` is the operation the step performs. -/
theorem decode_powerOfTwoLog_bitI (s : State) : decode .powerOfTwoLog (.w32 s.bitI) = .ok (fetch s) := rfl

/-- Settles O9: the decoded operation is the fetched one, and the step is its `exec`. -/
theorem stepRunsTheDecodedOperation : Obligations.StepRunsTheDecodedOperation := by
  intro s i hdecode
  have hfetch : fetch s = i := Except.ok.inj ((decode_powerOfTwoLog_bitI s).symm.trans hdecode)
  rw [step, hfetch]

end Sys2Proof.Scope

/-! ## The state and the ports (spec/10_state.md): what the outputs carry in every state -/

namespace Sys2Proof.Machine

/-! ### The table's entries on the result word -/

/-- R104: an entry is one of 0 to 36, whether the contract or the instance fixes it. -/
theorem LutEntry.code_toNat_le (fill : FillAddress → Fin 37) (e : LutEntry) : (e.code fill).toNat ≤ 36 := by
  cases e with
  | fixed k =>
    have := k.isLt
    rw [LutEntry.code_fixed_toNat]
    omega
  | fill f =>
    have := (fill f).isLt
    rw [LutEntry.code_fill_toNat]
    omega

/-- R104 for the read of an address. -/
theorem romReadWith_toNat_le (fill : FillAddress → Fin 37) (a : TableAddress) : (romReadWith fill a).toNat ≤ 36 :=
  (lutEntry a).code_toNat_le fill

/-- Zero extension of an exponent's 6-bit code is its 32-bit word. -/
theorem resultWord_ofNat_exponent (k : Fin 32) : resultWord (BitVec.ofNat 6 k.val) = BitVec.ofNat 32 k.val := by
  have := k.isLt
  apply BitVec.eq_of_toNat_eq
  simp only [resultWord_toNat, BitVec.toNat_ofNat]
  omega

/-- The guarantee of R28 for an instance of any fill: the address of 2^k holds the fixed entry k. -/
theorem computeWith_powerWord (fill : FillAddress → Fin 37) (k : Fin 32) :
    computeWith fill (powerWord k.val) = BitVec.ofNat 32 k.val := by
  rw [computeWith, romReadWith_of_fixed (Scope.lutEntry_modRed_powerWord k), resultWord_ofNat_exponent]

/-! ### The output ports as functions of the word on `bit_i` -/

variable (s : State)

/-- R27: `rem_o` has the value of the wire `rem`. -/
theorem State.remO_toNat : s.remO.toNat = s.remWire.val := addressCode_toNat s.remWire

/-- R28: `result_o` is the block's function of the word on `bit_i`. -/
theorem State.resultO_eq_computeWith : s.resultO = computeWith Config.lutFill s.bitI := rfl

/-- R27, R28: a state has no output of its own that could differ from the values of the word on `bit_i`. -/
theorem State.settled : s.Settled := ⟨s.remO_toNat, s.resultO_eq_computeWith⟩

/-- R27, R28: the wire carries an address, and the entry there is zero-extended. -/
theorem State.bounded : s.Bounded := by
  refine ⟨?rem, ?result, resultWord_high _⟩
  case rem =>
    rw [s.remO_toNat]
    exact Nat.le_of_lt_succ s.remWire.isLt
  case result =>
    rw [State.resultO, resultWord_toNat]
    exact romReadWith_toNat_le Config.lutFill s.remWire

/-- R28: the guarantee for the intended domain. -/
theorem State.exact_on_domain : s.Exact := by
  intro k hk
  rw [s.resultO_eq_computeWith, hk, computeWith_powerWord]

/-- What stands on `bit_i` with an address on the wire `rem` (assumption log 7). -/
theorem State.bitI_presentAddress (a : TableAddress) :
    (s.presentAddress a).bitI = s.bitI ∨ (s.presentAddress a).bitI = BitVec.ofNat 32 a.val := by
  by_cases h : s.remWire = a
  · exact .inl (congrArg State.bitI (s.presentAddress_of_carried a h))
  · exact .inr (congrArg State.bitI (s.presentAddress_of_not_carried a h))

end Sys2Proof.Machine

namespace Sys2Proof.Ports

open Sys2Proof Sys2Proof.Machine

/-- Settles O37: the three properties hold of every state, so of the one a step answers. -/
theorem everyStepKeepsTheOutputsSettled : Obligations.EveryStepKeepsTheOutputsSettled := by
  refine ⟨fun s => ⟨s.settled, s.bounded, s.exact_on_domain⟩, fun s x => ?_⟩
  have hstep : step (s.present x) = .next (s.present x) := step_next _
  exact ⟨s.present x, hstep, s.present_bitI x, State.settled _, State.bounded _, State.exact_on_domain _⟩

/-- Settles O38: the ranges hold of every state, and each operation's next state has the operand's remainder, or the
address, on the wire. -/
theorem everyOperationKeepsTheRanges : Obligations.EveryOperationKeepsTheRanges := by
  intro i s
  cases i with
  | modred x => exact ⟨s.present x, exec_modred x s, State.bounded _, by simp⟩
  | log2lut a => exact ⟨s.presentAddress a, exec_log2lut a s, State.bounded _, by simp⟩
  | compute x => exact ⟨s.present x, exec_compute x s, State.bounded _, by simp⟩

/-- Settles O10: the step answers the state the presentation left. -/
theorem presentedWordIsEvaluated : Obligations.PresentedWordIsEvaluated := by
  intro s x
  refine ⟨s.present_bitI x, s.present x, step_next _, s.present_bitI x, s.remO_present x, ?_⟩
  rw [State.resultO_eq_computeWith, State.present_bitI]

/-- Settles O35, by the inversions of the step and of `exec`. -/
theorem nothingDrivesTheInputPort : Obligations.NothingDrivesTheInputPort := by
  refine ⟨fun s t h => congrArg State.bitI (step_next_iff.mp h), fun i s t h => ?_⟩
  obtain ⟨x, rfl, rfl⟩ | ⟨a, rfl, rfl⟩ | ⟨x, rfl, rfl⟩ := exec_next_cases h
  · exact .inr (.inl rfl)
  · exact (s.bitI_presentAddress a).imp_right fun hword => .inr (.inr ⟨a, rfl, hword⟩)
  · exact .inr (.inr (.inl rfl))

/-- Settles O36: power-up is a state like any other. -/
theorem resetOutputsFollowTheInput : Obligations.ResetOutputsFollowTheInput :=
  ⟨State.settled _, State.bounded _, State.exact_on_domain _⟩

/-- Settles O39: presenting what stands on the port or the wire already is the identity, and a step presents
nothing. -/
theorem settledBlockIsAFixedPoint : Obligations.SettledBlockIsAFixedPoint := by
  refine ⟨fun s => ⟨?modred, ?log2lut, ?compute, step_next s⟩, fun _ t _ => step_next t⟩
  case modred => rw [exec_modred, State.present_self]
  case log2lut => rw [exec_log2lut, s.presentAddress_of_carried _ rfl]
  case compute => rw [exec_compute, State.present_self]

/-- Settles O43: a state is its input word, and the step is R33's function of it. -/
theorem blockStoresNothing : Obligations.BlockStoresNothing := by
  refine ⟨fun _ _ => rfl, fun s s' h => ?_, fun s => ⟨s, step_next s, step_is_blockStep s⟩⟩
  have heq : s = s' := State.ext_bitI h
  exact ⟨heq, congrArg State.remO heq, congrArg State.resultO heq⟩

end Sys2Proof.Ports

/-! ## Runs of lines (spec/20_memory.md R47, spec/30_encoding.md R68): a line's observation is its own -/

namespace Sys2Proof.Machine

/-- What a line observes wherever it stands in a run: the outputs of its own operand or address. For a `log2lut` line
this is the model's choice (assumption log 11). -/
def lineObservation : Instr → Observation
  | .modred x => { rem := some (addressCode (modRed x)), result := none }
  | .log2lut a => { rem := none, result := some (resultWord (romRead a)) }
  | .compute x => { rem := some (addressCode (modRed x)), result := some (computeWith Config.lutFill x) }

/-- The evaluation of a line never stops the machine, and the state before it does not show in what is observed. -/
theorem evaluate_observes (i : Instr) (s : State) : ∃ t, evaluate i s = some (lineObservation i, t) := by
  cases i with
  | modred x => exact ⟨s.present x, evaluate_modred x s⟩
  | log2lut a => exact ⟨s.presentAddress a, evaluate_log2lut a s⟩
  | compute x => exact ⟨s.present x, evaluate_compute x s⟩

theorem observe_cons {i : Instr} {s t : State} {o : Observation} (h : evaluate i s = some (o, t))
    (rest : List Instr) : observe (i :: rest) s = (observe rest t).map (o :: ·) := by
  rw [observe, h]

/-- R167: a run observes the lines' own observations in order, from every state. -/
theorem observe_eq_map (lines : List Instr) (s : State) : observe lines s = some (lines.map lineObservation) := by
  induction lines generalizing s with
  | nil => rfl
  | cons i rest ih =>
    obtain ⟨t, ht⟩ := evaluate_observes i s
    rw [observe_cons ht, ih t, Option.map_some, List.map_cons]

end Sys2Proof.Machine

namespace Sys2Proof.Runs

open Sys2Proof Sys2Proof.Machine

/-- Settles O41: each run pairs a line with its own observation, and mapping a function over two permutations gives
permutations. -/
theorem reorderedRunReordersTheObservation : Obligations.ReorderedRunReordersTheObservation := by
  intro lines lines' s s' hperm
  refine ⟨lines.map lineObservation, lines'.map lineObservation, observe_eq_map lines s, observe_eq_map lines' s',
    List.length_map _, List.length_map _, ?pairs⟩
  rw [← List.map_prod_left_eq_zip, ← List.map_prod_left_eq_zip]
  exact hperm.map fun i => (i, lineObservation i)

end Sys2Proof.Runs

/-! ## Encoding (spec/30_encoding.md): the decoder, the operation table's words, the stimulus lines -/

namespace Sys2Proof

open Machine

/-! ### The decoder, site by site -/

@[simp] theorem decode_moduloReducer_w32 (x : Word) : decode .moduloReducer (.w32 x) = .ok (.modred x) := rfl

@[simp] theorem decode_powerOfTwoLog_w32 (x : Word) : decode .powerOfTwoLog (.w32 x) = .ok (.compute x) := rfl

/-- R62: the table reads from a code the operation on the address that the code names. -/
theorem decode_a6_of_codeAddress_eq_some {c : Code} {a : TableAddress} (h : codeAddress c = some a) :
    decode .log2LookupTable (.a6 c) = .ok (.log2lut a) := by
  simp only [decode, h]

/-- Assumption log 10: a code that names no address is rejected by name. -/
theorem decode_a6_of_codeAddress_eq_none {c : Code} (h : codeAddress c = none) :
    decode .log2LookupTable (.a6 c) = .error (.neverProduced c) := by
  simp only [decode, h]

/-- The table reads nothing but LOG2LUT of the address that the code names. -/
theorem decode_a6_eq_ok_iff {c : Code} {i : Instr} :
    decode .log2LookupTable (.a6 c) = .ok i ↔ ∃ a, codeAddress c = some a ∧ i = .log2lut a := by
  cases h : codeAddress c with
  | none => simp [decode_a6_of_codeAddress_eq_none h]
  | some a => simp [decode_a6_of_codeAddress_eq_some h, eq_comm]

/-- Assumption log 10: the other format is rejected by the site's name. -/
theorem decode_of_format_ne {site : Site} {w : PortWord} (h : w.format ≠ site.format) :
    decode site w = .error (.wrongFormat site) :=
  match site, w with
  | .moduloReducer, .w32 _ => absurd rfl h
  | .moduloReducer, .a6 _ => rfl
  | .log2LookupTable, .w32 _ => rfl
  | .log2LookupTable, .a6 _ => absurd rfl h
  | .powerOfTwoLog, .w32 _ => absurd rfl h
  | .powerOfTwoLog, .a6 _ => rfl

/-! ### Decoder and encoder -/

/-- A code that names an address is the code of that address: no bit is lost. -/
theorem addressCode_of_codeAddress {c : Code} {a : TableAddress} (h : codeAddress c = some a) : addressCode a = c :=
  BitVec.eq_of_toNat_eq ((addressCode_toNat a).trans (codeAddress_eq_some.mp h).symm)

theorem decode_encode (i : Instr) : decode i.site (encode i) = .ok i := by
  cases i with
  | modred x => exact decode_moduloReducer_w32 x
  | log2lut a => exact decode_a6_of_codeAddress_eq_some (codeAddress_addressCode a)
  | compute x => exact decode_powerOfTwoLog_w32 x

/-- What a site reads from a word is an operation of that site, with that word. -/
theorem site_encode_of_decode {site : Site} {w : PortWord} {i : Instr} (h : decode site w = .ok i) :
    i.site = site ∧ encode i = w :=
  match site, w, h with
  | .moduloReducer, .w32 _, rfl => ⟨rfl, rfl⟩
  | .powerOfTwoLog, .w32 _, rfl => ⟨rfl, rfl⟩
  | .log2LookupTable, .a6 c, h => by
    obtain ⟨a, ha, rfl⟩ := decode_a6_eq_ok_iff.mp h
    exact ⟨rfl, congrArg PortWord.a6 (addressCode_of_codeAddress ha)⟩

/-! ### The words that can stand at a site -/

theorem PortWord.wellFormedAt_a6 {site : Site} {c : Code} :
    (PortWord.a6 c).wellFormedAt site = true ↔ site.format = .a6 ∧ c.toNat < 37 := by
  simp [PortWord.wellFormedAt]

theorem encode_wellFormedAt (i : Instr) : (encode i).wellFormedAt i.site = true := by
  cases i with
  | modred x => rfl
  | log2lut a => exact PortWord.wellFormedAt_a6.mpr ⟨rfl, (addressCode_toNat a).trans_lt a.isLt⟩
  | compute x => rfl

/-- R66: whatever can stand at a site is an operand there. -/
theorem exists_decode_of_wellFormedAt {site : Site} {w : PortWord} (h : w.wellFormedAt site = true) :
    ∃ i, decode site w = .ok i :=
  match site, w, h with
  | .moduloReducer, .w32 x, _ => ⟨.modred x, decode_moduloReducer_w32 x⟩
  | .powerOfTwoLog, .w32 x, _ => ⟨.compute x, decode_powerOfTwoLog_w32 x⟩
  | .log2LookupTable, .a6 c, h => by
    obtain ⟨-, hlt⟩ := PortWord.wellFormedAt_a6.mp h
    have haddress : codeAddress c = some ⟨c.toNat, hlt⟩ := codeAddress_eq_some.mpr rfl
    exact ⟨_, decode_a6_of_codeAddress_eq_some haddress⟩

theorem exists_decode_iff_wellFormedAt (site : Site) (w : PortWord) :
    (∃ i, decode site w = .ok i) ↔ w.wellFormedAt site = true := by
  refine ⟨?_, exists_decode_of_wellFormedAt⟩
  rintro ⟨i, h⟩
  obtain ⟨rfl, rfl⟩ := site_encode_of_decode h
  exact encode_wellFormedAt i

/-! ### The words of the operation table -/

/-- Assumption log 8, as an inversion: a table word is a whole W32 word, or the number of an address. -/
theorem decodeTableWord_cases {nbits w : Nat} {i : Instr} (h : decodeTableWord nbits w = some i) :
    i = .compute (BitVec.ofNat 32 w) ∨ ∃ a : TableAddress, w = a.val ∧ i = .log2lut a := by
  unfold decodeTableWord tableWord at h
  split_ifs at h with h32 h8
  · exact .inl (Option.some.inj h).symm
  · right
    cases hdecode : decode .log2LookupTable (.a6 (BitVec.ofNat 6 w)) with
    | error e => simp [hdecode, Except.toOption] at h
    | ok j =>
      obtain rfl : j = i := by simpa [hdecode, Except.toOption] using h
      obtain ⟨a, ha, rfl⟩ := decode_a6_eq_ok_iff.mp hdecode
      have hval : w % 2 ^ 6 = a.val := by simpa using codeAddress_eq_some.mp ha
      exact ⟨a, by omega, rfl⟩

/-- R83: a word of value `a` puts `a` on the wire `rem`, so that LOG2LUT of `a` changes as little as the step. -/
theorem Machine.step_present_address (s : State) (a : TableAddress) :
    step (s.present (BitVec.ofNat 32 a.val)) = exec (.log2lut a) (s.present (BitVec.ofNat 32 a.val)) := by
  have hcarried : (s.present (BitVec.ofNat 32 a.val)).remWire = a := by simp
  rw [step_next, exec_log2lut, State.presentAddress_of_carried _ a hcarried]

/-! ### The stimulus lines -/

theorem Line.wellFormed_iff {l : Line} :
    l.wellFormed = true ↔ l.operand.wellFormed = true ∧ l.operand.number < l.mnemonic.operandBound := by
  simp [Line.wellFormed]

theorem Line.assemble_eq_none {l : Line} (h : l.wellFormed = false) : l.assemble = none := by
  simp [Line.assemble, h]

section

variable {o : Operand}

theorem Line.assemble_compute (h : Line.wellFormed ⟨.compute, o⟩ = true) :
    Line.assemble ⟨.compute, o⟩ = some (.compute (BitVec.ofNat 32 o.number)) := if_pos h

theorem Line.assemble_modred (h : Line.wellFormed ⟨.modred, o⟩ = true) :
    Line.assemble ⟨.modred, o⟩ = some (.modred (BitVec.ofNat 32 o.number)) := if_pos h

theorem Line.assemble_log2lut (h : Line.wellFormed ⟨.log2lut, o⟩ = true) {a : TableAddress} (ha : o.number = a.val) :
    Line.assemble ⟨.log2lut, o⟩ = some (.log2lut a) := by
  have hcode : BitVec.ofNat 6 o.number = addressCode a := congrArg (BitVec.ofNat 6) ha
  simp [Line.assemble, h, hcode]

end

/-- A number within IN_W is the value of its word. -/
theorem toNat_ofNat_of_lt_inWidth {n : Nat} (h : n < 2 ^ Config.inWidth) : (BitVec.ofNat 32 n).toNat = n :=
  Nat.mod_eq_of_lt h

/-! ### The pseudo-operations -/

theorem pow2Line_wellFormed {k : Nat} (h : k ≤ 31) : (pow2Line k).wellFormed = true :=
  Line.wellFormed_iff.mpr ⟨decide_eq_true h, Nat.pow_lt_pow_right Nat.one_lt_two (Nat.lt_succ_of_le h)⟩

/-- The word of the number 2^k is `1 << k`. -/
theorem ofNat_two_pow {k : Nat} (h : k ≤ 31) : BitVec.ofNat 32 (2 ^ k) = powerWord k := by
  rw [← powerWord_toNat (Nat.lt_succ_of_le h), BitVec.ofNat_toNat, BitVec.setWidth_eq]

theorem assemble_pow2Line {k : Nat} (h : k ≤ 31) : (pow2Line k).assemble = some (.compute (powerWord k)) := by
  rw [← ofNat_two_pow h]
  exact Line.assemble_compute (pow2Line_wellFormed h)

/-- R69: a run of `pow2` lines assembles line by line, in order. -/
theorem mapM_assemble_pow2Line (ks : List Nat) (h : ∀ k ∈ ks, k ≤ 31) :
    (ks.map pow2Line).mapM Line.assemble = some (ks.map fun k => .compute (powerWord k)) := by
  induction ks with
  | nil => rfl
  | cons k ks ih =>
    obtain ⟨hk, hks⟩ := List.forall_mem_cons.mp h
    simp [assemble_pow2Line hk, ih hks]

end Sys2Proof

namespace Sys2Proof.EncodingClaims

open Sys2Proof Sys2Proof.Machine

/-- Settles O2, operation by operation. -/
theorem decodeOfEncodeIsTheOperation : Obligations.DecodeOfEncodeIsTheOperation := decode_encode

/-- Settles O3, by the decoder's inversion. -/
theorem decodedWordIsTheEncoding : Obligations.DecodedWordIsTheEncoding := fun _ _ _ => site_encode_of_decode

/-- Settles O4: the codes that name no address are 37 to 63. -/
theorem decoderAcceptsExactlyTheSiteWords : Obligations.DecoderAcceptsExactlyTheSiteWords := by
  refine ⟨exists_decode_iff_wellFormedAt, fun c hc => ?_, fun _ _ => decode_of_format_ne⟩
  exact decode_a6_of_codeAddress_eq_none (codeAddress_eq_none.mpr hc)

/-- Settles O6: a W32 word is what the step fetches, and an address is its own remainder, so that it stands on the
wire `rem` already. -/
theorem tableWordRunsInTheNextStep : Obligations.TableWordRunsInTheNextStep := by
  intro s nbits w i h
  rw [withFetchWord_eq]
  obtain rfl | ⟨a, rfl, rfl⟩ := decodeTableWord_cases h
  · exact Scope.stepRunsTheDecodedOperation _ _ (decode_powerOfTwoLog_w32 _)
  · exact step_present_address s a

/-- Settles O7: in each mnemonic's range the operand's word has the operand's number. -/
theorem linesAssembleExactlyInRange : Obligations.LinesAssembleExactlyInRange := by
  refine ⟨?inRange, fun _ => Line.assemble_eq_none⟩
  rintro ⟨mnemonic, operand⟩ h
  obtain ⟨-, hbound⟩ := Line.wellFormed_iff.mp h
  cases mnemonic with
  | compute => exact ⟨_, Line.assemble_compute h, toNat_ofNat_of_lt_inWidth hbound, rfl⟩
  | modred => exact ⟨_, Line.assemble_modred h, toNat_ofNat_of_lt_inWidth hbound, rfl⟩
  | log2lut =>
    have haddress : operand.number = (⟨operand.number, hbound⟩ : TableAddress).val := rfl
    exact ⟨_, Line.assemble_log2lut h haddress, addressCode_toNat _, rfl⟩

/-- Settles O1: the decoder is the identity on the operand. -/
theorem everyWordIsAnOperand : Obligations.EveryWordIsAnOperand :=
  fun x => ⟨decode_powerOfTwoLog_w32 x, decode_moduloReducer_w32 x, rfl⟩

/-- Settles O5: the table's word names the address 34, and the other two are operands whole. -/
theorem writtenOutWordsDecode : Obligations.WrittenOutWordsDecode :=
  ⟨decode_moduloReducer_w32 256, decode_encode (.log2lut 34), decode_powerOfTwoLog_w32 2147483648⟩

/-- Settles O8: both are lists of `pow2` lines. -/
theorem pseudoOperationsExpand : Obligations.PseudoOperationsExpand := by
  refine ⟨fun k hk => ?pow2, ?driver⟩
  case pow2 => exact mapM_assemble_pow2Line [k] fun j hj => List.mem_singleton.mp hj ▸ hk
  case driver => exact mapM_assemble_pow2Line (List.range 32) fun k hk => Nat.le_of_lt_succ (List.mem_range.mp hk)

/-- Settles O42: both lines present `x`, and differ in what they observe. -/
theorem modredLineIsTheSamePresentation : Obligations.ModredLineIsTheSamePresentation :=
  fun x s => ⟨_, _, _, evaluate_compute x s, evaluate_modred x s, rfl, rfl, rfl, rfl⟩

end Sys2Proof.EncodingClaims

/-! ## MODRED (spec/40_modulo_reducer.md): the remainder, its counts and its weights -/

namespace Sys2Proof.Machine

/-! ### The remainder by its defining property -/

/-- R80, R81: the remainder is the one address that division by 37 leaves. -/
theorem modRed_eq_iff {x : Word} {r : TableAddress} : modRed x = r ↔ ∃ q : Nat, x.toNat = 37 * q + r.val := by
  have hr := r.isLt
  rw [Fin.ext_iff, modRed_val]
  constructor
  · intro h
    exact ⟨x.toNat / 37, by omega⟩
  · rintro ⟨q, hq⟩
    omega

/-- A code is that of a remainder where it has the remainder's value. -/
theorem addressCode_eq_iff {a : TableAddress} {c : Code} : addressCode a = c ↔ a.val = c.toNat := by
  rw [← BitVec.toNat_inj, addressCode_toNat]

/-- R83 for a word given by its value. -/
theorem modRed_val_of_le {x : Word} (h : x.toNat ≤ 36) : (modRed x).val = x.toNat :=
  Nat.mod_eq_of_lt (Nat.lt_succ_of_le h)

/-- R83: the address 0 is reached by the multiples of 37. -/
theorem modRed_eq_zero_iff {x : Word} : modRed x = 0 ↔ 37 ∣ x.toNat := modRed_eq_iff

/-- R84: the reducer tells two words apart up to congruence modulo 37. -/
theorem modRed_eq_modRed_iff {x y : Word} : modRed x = modRed y ↔ x.toNat ≡ y.toNat [MOD 37] := Fin.ext_iff

/-- R84: within the range of a word, 37 more is the same remainder. -/
theorem modRed_add_modulus {x : Word} (h : x.toNat + 37 < 2 ^ 32) : modRed (x + 37) = modRed x := by
  have hsum : (x + 37).toNat = x.toNat + 37 := BitVec.toNat_add_of_lt h
  rw [modRed_eq_modRed_iff, hsum]
  exact Nat.add_modEq_right

/-! ### How many words have a remainder -/

/-- The words of a width whose values have a property are as many as the numbers below 2^w that have it. -/
theorem ncard_setOf_toNat {w : Nat} (p : Nat → Prop) [DecidablePred p] :
    {x : BitVec w | p x.toNat}.ncard = (2 ^ w).count p := by
  have himage : BitVec.toNat '' {x : BitVec w | p x.toNat} = ↑{n ∈ Finset.range (2 ^ w) | p n} := by
    ext n
    simp only [Set.mem_image, Set.mem_ofPred_eq, Finset.coe_filter, Finset.mem_range]
    constructor
    · rintro ⟨x, hx, rfl⟩
      exact ⟨x.isLt, hx⟩
    · rintro ⟨hn, hp⟩
      have hval : (BitVec.ofNat w n).toNat = n := Nat.mod_eq_of_lt hn
      exact ⟨BitVec.ofNat w n, hval.symm ▸ hp, hval⟩
  rw [← Set.ncard_image_of_injective _ BitVec.toNat_injective, himage, Set.ncard_coe_finset,
    Nat.count_eq_card_filter_range]

/-- R84: 2^32 = 37 * 116080197 + 7, so the seven least remainders have one word more than the others. -/
theorem ncard_modRed_eq (r : TableAddress) :
    {x : Word | modRed x = r}.ncard = if r.val ≤ 6 then 116080198 else 116080197 := by
  have hset : {x : Word | modRed x = r} = {x : Word | x.toNat ≡ r.val [MOD 37]} := by
    ext x
    rw [Set.mem_ofPred_eq, Set.mem_ofPred_eq, Nat.ModEq, Nat.mod_eq_of_lt r.isLt, ← modRed_val, Fin.ext_iff]
  rw [hset, ncard_setOf_toNat (· ≡ r.val [MOD 37]), Nat.count_modEq_card _ (by decide), Nat.mod_eq_of_lt r.isLt]
  split_ifs <;> omega

/-! ### The identities over bits, bytes and two fields -/

/-- A number given by its bits is the sum of their weights. -/
theorem ofBits_eq_sum {n : Nat} (f : Fin n → Bool) : Nat.ofBits f = ∑ i, (f i).toNat * 2 ^ i.val := by
  induction n with
  | zero => rfl
  | succ n ih =>
    rw [Nat.ofBits_succ, ih, Fin.sum_univ_succ, Finset.mul_sum, add_comm]
    congr 1
    · simp
    · refine Finset.sum_congr rfl fun i _ => ?_
      rw [Function.comp_apply, Fin.val_succ, pow_succ]
      ring

/-- R7: a word is the sum of its bits by their weights. -/
theorem toNat_eq_sum_bits {w : Nat} (x : BitVec w) : x.toNat = ∑ i : Fin w, (x.getLsbD i.val).toNat * 2 ^ i.val :=
  calc x.toNat
    _ = Nat.ofBits fun i : Fin w => x.toNat.testBit i.val := by rw [Nat.ofBits_testBit, Nat.mod_eq_of_lt x.isLt]
    _ = ∑ i : Fin w, (x.getLsbD i.val).toNat * 2 ^ i.val := ofBits_eq_sum _

/-- R85: the sum of a word's bits by the remainders of their weights. -/
def bitWeightSum (x : Word) : Nat := ∑ i : Fin 32, (x.getLsbD i.val).toNat * (2 ^ i.val % 37)

/-- Reducing each weight keeps the sum modulo 37. -/
theorem modRed_val_eq_bitWeightSum (x : Word) : (modRed x).val = bitWeightSum x % 37 := by
  have hcongr : x.toNat ≡ bitWeightSum x [MOD 37] := by
    rw [toNat_eq_sum_bits x, bitWeightSum]
    exact Nat.ModEq.sum fun i _ => (Nat.mod_modEq (2 ^ i.val) 37).symm.mul_left _
  exact hcongr

/-- With all bits set the sum is that of the 32 remainders, which is 598. -/
theorem bitWeightSum_le (x : Word) : bitWeightSum x ≤ 598 :=
  calc bitWeightSum x
    _ ≤ ∑ i : Fin 32, 1 * (2 ^ i.val % 37) :=
      Finset.sum_le_sum fun i _ => Nat.mul_le_mul_right _ (Bool.toNat_le _)
    _ = 598 := by decide

/-- A field of a word, as the quotient and remainder that give its value. -/
theorem toNat_extractLsb'_eq (x : Word) (start len : Nat) :
    (x.extractLsb' start len).toNat = x.toNat / 2 ^ start % 2 ^ len := by
  rw [BitVec.extractLsb'_toNat, Nat.shiftRight_eq_div_pow]

/-- A word is the sum of its four bytes by their weights. -/
theorem toNat_eq_sum_bytes (x : Word) :
    x.toNat = (x.extractLsb' 0 8).toNat + 2 ^ 8 * (x.extractLsb' 8 8).toNat +
      2 ^ 16 * (x.extractLsb' 16 8).toNat + 2 ^ 24 * (x.extractLsb' 24 8).toNat := by
  have hx := x.isLt
  simp only [toNat_extractLsb'_eq]
  omega

/-- A word is the sum of its 18 low bits and its 14 high bits by their weights. -/
theorem toNat_eq_sum_18_14 (x : Word) :
    x.toNat = (x.extractLsb' 0 18).toNat + 2 ^ 18 * (x.extractLsb' 18 14).toNat := by
  have hx := x.isLt
  simp only [toNat_extractLsb'_eq]
  omega

end Sys2Proof.Machine

namespace Sys2Proof.Reducer

open Sys2Proof Sys2Proof.Machine

/-- Settles O11: the wire carries the remainder of the word presented. -/
theorem modredDrivesTheRemainder : Obligations.ModredDrivesTheRemainder := by
  refine ⟨fun x s => ?quotient, fun p hp s => ?corners, fun x s hx => ?small, fun s => ?present⟩
  case quotient =>
    obtain ⟨hrem, -, -⟩ := (s.present x).bounded
    refine ⟨s.present x, exec_modred x s, s.present_bitI x, hrem, ?_⟩
    rw [State.remO_toNat]
    exact modRed_eq_iff.mp rfl
  case corners =>
    refine ⟨s.present p.1, exec_modred p.1 s, ?_⟩
    rw [State.remO_present, addressCode_eq_iff, modRed_val]
    revert p
    simp
  case small =>
    refine ⟨s.present x, exec_modred x s, ?_⟩
    rw [State.remO_toNat, State.remWire_present, modRed_val_of_le hx]
  case present => rw [exec_modred, State.present_self]

/-- Settles O17: the defining property leaves one value at each word. -/
theorem remainderFunctionIsUnique : Obligations.RemainderFunctionIsUnique := by
  intro f
  simp only [← modRed_eq_iff, funext_iff, eq_comm]

/-- Settles O13: the multiples are counted as the words of remainder 0, and 0 is a fill address, which no domain word
reaches. -/
theorem smallOperandsAndMultiples : Obligations.SmallOperandsAndMultiples := by
  refine ⟨fun _ => modRed_val_of_le, fun _ => modRed_eq_zero_iff, ?count, ?domain⟩
  case count =>
    simp only [← modRed_eq_zero_iff]
    exact ncard_modRed_eq 0
  case domain =>
    rintro x ⟨k, rfl⟩
    exact (Scope.not_remainder_of_powerWord_iff 0).mpr (by decide) k

/-- Settles O14: one remainder is congruence modulo 37, and the table is read at the remainder alone. -/
theorem periodicityAndCounts : Obligations.PeriodicityAndCounts := by
  refine ⟨fun _ => modRed_add_modulus, fun x y => ?difference, ncard_modRed_eq, fun fill x y h => ?result⟩
  case difference => rw [modRed_eq_modRed_iff, Nat.ModEq.comm, Nat.modEq_iff_dvd, Nat.cast_ofNat]
  case result => rw [computeWith, computeWith, h]

/-- Settles O15: each weight of bit, byte or field is replaced by its remainder, and a byte is at most 255. -/
theorem weightIdentities : Obligations.WeightIdentities := by
  intro x
  refine ⟨⟨modRed_val_eq_bitWeightSum x, bitWeightSum_le x⟩, ?bytes, ?fields⟩
  case bytes =>
    have hword := toNat_eq_sum_bytes x
    have h0 := (x.extractLsb' 0 8).isLt
    have h8 := (x.extractLsb' 8 8).isLt
    have h16 := (x.extractLsb' 16 8).isLt
    have h24 := (x.extractLsb' 24 8).isLt
    constructor
    · rw [modRed_val]
      omega
    · omega
  case fields =>
    have hword := toNat_eq_sum_18_14 x
    rw [modRed_val]
    omega

/-- Settles O12: the range is that of every state's `rem_o`, and a small word is its own remainder. -/
theorem remainderRange : Obligations.RemainderRange := by
  refine ⟨fun x s => ?range, fun r hr s => ?onto⟩
  case range =>
    obtain ⟨hrem, -, -⟩ := (s.present x).bounded
    exact ⟨s.present x, exec_modred x s, hrem⟩
  case onto =>
    refine ⟨s.present (BitVec.ofNat 32 r), exec_modred _ s, ?_⟩
    rw [State.remO_toNat, State.remWire_present, modRed_ofNat_of_lt (Nat.lt_succ_of_le hr)]

/-- Settles O16: the list and the absence of fixed points are computed from 2^k mod 37, and the audit of the modulus
gives the rest. -/
theorem remaindersOfTheDomainWords : Obligations.RemaindersOfTheDomainWords := by
  refine ⟨?list, fun _ _ h => Scope.modRed_powerWord_injective h, fun k => ?notFixed, fun k hk => ?double,
    Scope.not_remainder_of_powerWord_iff, by decide⟩
  case list => decide
  case notFixed =>
    rw [Scope.modRed_powerWord_val k.isLt]
    revert k
    decide
  case double =>
    rw [Scope.modRed_powerWord_val (Nat.succ_lt_succ hk), Scope.modRed_powerWord_val (Nat.lt_succ_of_lt hk), pow_succ',
      Nat.mul_mod_mod]

end Sys2Proof.Reducer

/-! ## LOG2LUT (spec/41_log2_lookup_table.md): what each address holds, and what the fill decides -/

namespace Sys2Proof

open Machine

/-! ### The 37 addresses: 32 remainders of domain words, and five fill addresses -/

/-- R103: where the table holds a fill entry. -/
def FillAddress.address : FillAddress → TableAddress
  | .a0 => 0
  | .a7 => 7
  | .a14 => 14
  | .a19 => 19
  | .a28 => 28

theorem FillAddress.lutEntry_address (f : FillAddress) : lutEntry f.address = .fill f := by
  cases f <;> rfl

/-- The five fill addresses hold each a fill entry of its own. -/
theorem FillAddress.eq_address_of_lutEntry {a : TableAddress} {f : FillAddress} (h : lutEntry a = .fill f) :
    a = f.address := by
  revert a
  cases f <;> decide

/-- R102: an exponent is fixed at the remainder of its power of two and nowhere else, since a fixed entry stands at
the remainder of some domain word, which holds that word's exponent. -/
theorem Machine.lutEntry_eq_fixed_iff {a : TableAddress} {k : Fin 32} :
    lutEntry a = .fixed k ↔ a = modRed (powerWord k.val) := by
  constructor
  · intro h
    obtain ⟨j, rfl⟩ := (Scope.exists_powerWord_iff a).mpr (isFillAddress_eq_false.mpr ⟨k, h⟩)
    obtain rfl : j = k := LutEntry.fixed.inj ((Scope.lutEntry_modRed_powerWord j).symm.trans h)
    rfl
  · rintro rfl
    exact Scope.lutEntry_modRed_powerWord k

/-- R102, R103: there is no third kind of address. -/
theorem Machine.tableAddress_cases (a : TableAddress) :
    (∃ k : Fin 32, a = modRed (powerWord k.val)) ∨ ∃ f : FillAddress, a = f.address := by
  cases h : lutEntry a with
  | fixed k => exact .inl ⟨k, lutEntry_eq_fixed_iff.mp h⟩
  | fill f => exact .inr ⟨f, FillAddress.eq_address_of_lutEntry h⟩

namespace Machine

/-! ### What the read gives at each kind of address -/

/-- R102 for the read, whatever the fill. -/
theorem romReadWith_modRed_powerWord (fill : FillAddress → Fin 37) (k : Fin 32) :
    romReadWith fill (modRed (powerWord k.val)) = BitVec.ofNat 6 k.val :=
  romReadWith_of_fixed (Scope.lutEntry_modRed_powerWord k) fill

/-- R103 for the read. -/
theorem romReadWith_address (fill : FillAddress → Fin 37) (f : FillAddress) :
    romReadWith fill f.address = BitVec.ofNat 6 (fill f).val :=
  romReadWith_of_fill f.lutEntry_address fill

theorem romReadWith_address_toNat (fill : FillAddress → Fin 37) (f : FillAddress) :
    (romReadWith fill f.address).toNat = (fill f).val := by
  rw [romReadWith, f.lutEntry_address, LutEntry.code_fill_toNat]

/-- R104 at a reachable address: the entry is an exponent. -/
theorem romReadWith_toNat_le_of_reachable (fill : FillAddress → Fin 37) {a : TableAddress}
    (h : isFillAddress a = false) : (romReadWith fill a).toNat ≤ 31 := by
  obtain ⟨k, hk⟩ := isFillAddress_eq_false.mp h
  rw [romReadWith, hk, LutEntry.code_fixed_toNat]
  exact Nat.le_of_lt_succ k.isLt

/-- R105: no two exponents have one code, and no two reachable addresses one exponent. -/
theorem romReadWith_injOn_reachable (fill : FillAddress → Fin 37) {a b : TableAddress}
    (ha : isFillAddress a = false) (hb : isFillAddress b = false) (h : romReadWith fill a = romReadWith fill b) :
    a = b := by
  obtain ⟨j, hj⟩ := isFillAddress_eq_false.mp ha
  obtain ⟨k, hk⟩ := isFillAddress_eq_false.mp hb
  have hval : j.val = k.val := by
    simpa only [romReadWith, hj, hk, LutEntry.code_fixed_toNat] using congrArg BitVec.toNat h
  obtain rfl : j = k := Fin.ext hval
  rw [lutEntry_eq_fixed_iff.mp hj, lutEntry_eq_fixed_iff.mp hk]

/-- The number an entry reads as. -/
def LutEntry.value (fill : FillAddress → Fin 37) : LutEntry → Nat
  | .fixed k => k.val
  | .fill f => (fill f).val

theorem romReadWith_toNat (fill : FillAddress → Fin 37) (a : TableAddress) :
    (romReadWith fill a).toNat = (lutEntry a).value fill := by
  rw [romReadWith]
  cases lutEntry a with
  | fixed k => exact LutEntry.code_fixed_toNat fill k
  | fill f => exact LutEntry.code_fill_toNat fill f

/-- R63: the word of a fixed entry is its exponent. -/
theorem resultWord_romReadWith_of_fixed {a : TableAddress} {k : Fin 32} (h : lutEntry a = .fixed k)
    (fill : FillAddress → Fin 37) : resultWord (romReadWith fill a) = BitVec.ofNat 32 k.val := by
  rw [romReadWith_of_fixed h, resultWord_ofNat_exponent]

/-- R63: the word of a fill entry is the fill's value. -/
theorem resultWord_romReadWith_of_fill {a : TableAddress} {f : FillAddress} (h : lutEntry a = .fill f)
    (fill : FillAddress → Fin 37) : resultWord (romReadWith fill a) = BitVec.ofNat 32 (fill f).val := by
  apply BitVec.eq_of_toNat_eq
  have hlt : (fill f).val < 2 ^ 32 := (fill f).isLt.trans (by decide)
  rw [resultWord_toNat, romReadWith, h, LutEntry.code_fill_toNat, BitVec.toNat_ofNat, Nat.mod_eq_of_lt hlt]

/-! ### The table as a function of its fill -/

/-- The fill that a bounded function of the address shows at the fill addresses (R106, D15). -/
def shownFill (f : TableAddress → Code) (hle : ∀ a, (f a).toNat ≤ 36) (g : FillAddress) : Fin 37 :=
  ⟨(f g.address).toNat, Nat.lt_succ_of_le (hle g.address)⟩

/-- A function with the guarantee is the read of the fill it shows: elsewhere the guarantee fixes it. -/
theorem eq_romReadWith_shownFill {f : TableAddress → Code}
    (hexact : ∀ k : Fin 32, f (modRed (powerWord k.val)) = BitVec.ofNat 6 k.val)
    (hle : ∀ a, (f a).toNat ≤ 36) (a : TableAddress) : f a = romReadWith (shownFill f hle) a := by
  obtain ⟨k, rfl⟩ | ⟨g, rfl⟩ := tableAddress_cases a
  · rw [hexact k, romReadWith_modRed_powerWord]
  · exact BitVec.eq_of_toNat_eq (romReadWith_address_toNat (shownFill f hle) g).symm

/-- The read determines the fill, since each fill entry is read at its own address. -/
theorem romReadWith_injective : Function.Injective romReadWith := by
  intro fill fill' h
  funext g
  apply Fin.ext
  rw [← romReadWith_address_toNat fill g, ← romReadWith_address_toNat fill' g, h]

/-- Five values, one for each fill address. -/
def fillOfValues (v0 v7 v14 v19 v28 : Fin 37) : FillAddress → Fin 37
  | .a0 => v0
  | .a7 => v7
  | .a14 => v14
  | .a19 => v19
  | .a28 => v28

/-! ### The words that reach a fill address -/

/-- R103: no domain word selects a fill address. -/
theorem isFillAddress_modRed_of_isDomainWord {x : Word} (h : IsDomainWord x) : isFillAddress (modRed x) = false := by
  obtain ⟨k, rfl⟩ := h
  exact (Scope.exists_powerWord_iff _).mp ⟨k, rfl⟩

/-- A word whose remainder is a fill address has the fill's value as its result. -/
theorem computeWith_toNat_of_fill {x : Word} {f : FillAddress} (h : lutEntry (modRed x) = .fill f)
    (fill : FillAddress → Fin 37) : (computeWith fill x).toNat = (fill f).val := by
  rw [computeWith, resultWord_toNat, romReadWith, h, LutEntry.code_fill_toNat]

end Machine

end Sys2Proof

namespace Sys2Proof.LookupTable

open Sys2Proof Sys2Proof.Machine

/-- Settles O21: the function shows its fill at the five fill addresses, and the read determines it. -/
theorem tableIsForcedUpToItsFill : Obligations.TableIsForcedUpToItsFill := by
  intro f
  constructor
  · rintro ⟨hexact, hle⟩
    have hread : f = romReadWith (shownFill f hle) := funext (eq_romReadWith_shownFill hexact hle)
    refine ⟨shownFill f hle, congrFun hread, fun fill hfill => ?_⟩
    exact romReadWith_injective ((funext hfill).symm.trans hread)
  · rintro ⟨fill, hfill, -⟩
    obtain rfl : f = romReadWith fill := funext hfill
    exact ⟨romReadWith_modRed_powerWord fill, romReadWith_toNat_le fill⟩

/-- Settles O19: the operation leaves its address on the wire, where the port reads the table. -/
theorem log2lutReadsTheTable : Obligations.Log2lutReadsTheTable := by
  refine ⟨fun a s => ?entry, fun p hp s => ?fixed, fun p hp s => ?fill⟩
  case entry =>
    obtain ⟨-, hresult, hhigh⟩ := (s.presentAddress a).bounded
    refine ⟨s.presentAddress a, exec_log2lut a s, s.remWire_presentAddress a, ?low, hhigh, hresult,
      s.presentAddress_of_carried a, fun h => ?word⟩
    case low => rw [State.resultO_presentAddress, resultWord_low]
    case word => rw [s.presentAddress_of_not_carried a h, State.present_bitI]
  case fixed =>
    have hentry : ∃ k : Fin 32, lutEntry p.1 = .fixed k ∧ BitVec.ofNat 32 k.val = p.2 := by
      revert p
      simp only [List.forall_mem_cons]
      exact ⟨⟨0, rfl, rfl⟩, ⟨31, rfl, rfl⟩, ⟨18, rfl, rfl⟩, ⟨8, rfl, rfl⟩, List.forall_mem_nil _⟩
    obtain ⟨k, hk, hword⟩ := hentry
    refine ⟨s.presentAddress p.1, exec_log2lut p.1 s, ?_⟩
    rw [State.resultO_presentAddress, romRead, resultWord_romReadWith_of_fixed hk, hword]
  case fill =>
    have hentry : lutEntry p.1 = .fill p.2 := by
      revert p
      decide
    refine ⟨s.presentAddress p.1, exec_log2lut p.1 s, ?_⟩
    rw [State.resultO_presentAddress, romRead, resultWord_romReadWith_of_fill hentry]

/-- Settles O20: the list is read off the table entry by entry, and the fixed entries are where the powers of two
fall. -/
theorem tableContents : Obligations.TableContents := by
  refine ⟨fun fill => ?list, romReadWith_modRed_powerWord, fun _ _ => lutEntry_eq_fixed_iff⟩
  case list =>
    simp only [romReadWith_toNat]
    rfl

/-- Settles O22: a step leaves `result_o` with the entry at the wire's address. -/
theorem entryRange : Obligations.EntryRange := by
  refine ⟨fun fill a => ⟨romReadWith_toNat_le fill a, romReadWith_toNat_le_of_reachable fill⟩, fun s => ?port⟩
  case port =>
    refine ⟨s, step_next s, ?_⟩
    rw [State.resultO, resultWord_low]
    exact romReadWith_toNat_le Config.lutFill s.remWire

/-- Settles O23: the inverse on [0, 31] takes k to the remainder of 2^k, and a fill of 0 at address 0 repeats the
exponent of the word 1. -/
theorem fixedPartIsABijection : Obligations.FixedPartIsABijection := by
  refine ⟨fun fill _ _ => romReadWith_injOn_reachable fill, fun fill k => ?onto, fun fill hzero => ?repeated⟩
  case onto =>
    exact ⟨modRed (powerWord k.val), isFillAddress_modRed_of_isDomainWord ⟨k, rfl⟩,
      romReadWith_modRed_powerWord fill k⟩
  case repeated =>
    have hread : romReadWith fill 0 = romReadWith fill 1 :=
      calc romReadWith fill 0
        _ = BitVec.ofNat 6 (fill .a0).val := romReadWith_address fill .a0
        _ = BitVec.ofNat 6 (0 : Fin 32).val := by rw [hzero]; rfl
        _ = romReadWith fill 1 := (romReadWith_modRed_powerWord fill 0).symm
    have hoff : ¬ IsDomainWord 0 := fun h => absurd (isFillAddress_modRed_of_isDomainWord h) (by decide)
    exact ⟨hread, congrArg resultWord hread, ⟨0, rfl⟩, hoff⟩

/-- Settles O24: each of the five values is read at its own address. -/
theorem fillAddressesHoldTheParameter : Obligations.FillAddressesHoldTheParameter := by
  refine ⟨Scope.isFillAddress_iff_mem, fun _ => isFillAddress_modRed_of_isDomainWord,
    fun v0 v7 v14 v19 v28 => ?_⟩
  have hread := romReadWith_address_toNat (fillOfValues v0 v7 v14 v19 v28)
  exact ⟨_, hread .a0, hread .a7, hread .a14, hread .a19, hread .a28⟩

/-- Settles O25: a fixed entry is the same under every fill, and at a fill address the constant fills 0 and 1
differ. -/
theorem fillMattersOnlyAtFillAddresses : Obligations.FillMattersOnlyAtFillAddresses := by
  intro x
  cases h : lutEntry (modRed x) with
  | fixed k =>
    refine iff_of_true (isFillAddress_eq_false.mpr ⟨k, h⟩) fun fill fill' => ?_
    rw [computeWith, computeWith, romReadWith_of_fixed h, romReadWith_of_fixed h]
  | fill f =>
    refine iff_of_false (ne_false_of_eq_true (isFillAddress_eq_true.mpr ⟨f, h⟩)) fun hsame => ?_
    have hval := congrArg BitVec.toNat (hsame (fun _ => 0) fun _ => 1)
    rw [computeWith_toNat_of_fill h, computeWith_toNat_of_fill h] at hval
    exact absurd hval (by decide)

end Sys2Proof.LookupTable

/-! ## COMPUTE (spec/42_power_of_two_log.md): the outputs of every evaluation -/

namespace Sys2Proof.Machine

/-! ### What the step after a presentation gives, by the entry at the remainder -/

section

variable {x : Word} {a : TableAddress}

/-- The ports after a presentation are read off the word's remainder. -/
theorem step_present_of_modRed (ha : modRed x = a) (s : State) :
    ∃ t, step (s.present x) = .next t ∧ t.remO = addressCode a ∧ t.resultO = resultWord (romRead a) := by
  subst ha
  exact ⟨s.present x, step_next _, s.remO_present x, s.resultO_present x⟩

/-- R102, R121: at a reachable address the result is the exponent fixed there. -/
theorem step_present_of_fixed {k : Fin 32} (ha : modRed x = a) (hk : lutEntry a = .fixed k) (s : State) :
    ∃ t, step (s.present x) = .next t ∧ t.remO = addressCode a ∧ t.resultO = BitVec.ofNat 32 k.val := by
  rw [← resultWord_romReadWith_of_fixed hk Config.lutFill]
  exact step_present_of_modRed ha s

/-- R103, R125: at a fill address the result is the instance's fill. -/
theorem step_present_of_fill {f : FillAddress} (ha : modRed x = a) (hf : lutEntry a = .fill f) (s : State) :
    ∃ t, step (s.present x) = .next t ∧ t.remO = addressCode a ∧
      t.resultO = BitVec.ofNat 32 (Config.lutFill f).val := by
  rw [← resultWord_romReadWith_of_fill hf Config.lutFill]
  exact step_present_of_modRed ha s

end

/-- R122: the outcome of every operation is a next state. -/
theorem exec_completes (i : Instr) (s : State) : Completes (exec i s) := by
  cases i with
  | modred x => exact ⟨_, exec_modred x s⟩
  | log2lut a => exact ⟨_, exec_log2lut a s⟩
  | compute x => exact ⟨_, exec_compute x s⟩

/-- R122: the step of every state completes, since it is an operation. -/
theorem step_completes (s : State) : Completes (step s) := exec_completes (fetch s) s

/-- R120: where the wire carries the address already, as it does after MODRED, LOG2LUT leaves the presentation as it
is. -/
theorem exec_log2lut_present (x : Word) (s : State) :
    exec (.log2lut (modRed x)) (s.present x) = .next (s.present x) := by
  rw [exec_log2lut, State.presentAddress_of_carried _ _ (s.remWire_present x)]

/-! ### The domain words among the words of a remainder -/

/-- A domain word is told by its remainder among the domain words. -/
theorem isDomainWord_iff_eq {x : Word} {k : Fin 32} (h : modRed x = modRed (powerWord k.val)) :
    IsDomainWord x ↔ x = powerWord k.val := by
  constructor
  · rintro ⟨j, rfl⟩
    rw [Scope.modRed_powerWord_injective h]
  · rintro rfl
    exact ⟨k, rfl⟩

/-- R124: on a domain word the entry read is a fixed one. -/
theorem State.resultO_toNat_le_of_isDomainWord {s : State} (h : IsDomainWord s.bitI) : s.resultO.toNat ≤ 31 := by
  rw [State.resultO, resultWord_toNat]
  exact romReadWith_toNat_le_of_reachable Config.lutFill (isFillAddress_modRed_of_isDomainWord h)

/-! ### How many words there are of each kind -/

/-- R84 for a set of remainders: its words are counted remainder by remainder. -/
theorem ncard_modRed_mem (A : Finset TableAddress) :
    {x : Word | modRed x ∈ A}.ncard = ∑ r ∈ A, if r.val ≤ 6 then 116080198 else 116080197 := by
  have hunion : {x : Word | modRed x ∈ A} = ⋃ r ∈ (A : Set TableAddress), {x : Word | modRed x = r} := by
    ext x
    simp
  have hdisjoint : (A : Set TableAddress).PairwiseDisjoint fun r => {x : Word | modRed x = r} :=
    fun r _ r' _ hne => Set.disjoint_left.mpr fun x hr hr' => hne (hr.symm.trans hr')
  rw [hunion, A.finite_toSet.ncard_biUnion (fun _ _ => Set.toFinite _) hdisjoint, finsum_mem_coe_finset]
  exact Finset.sum_congr rfl fun r _ => ncard_modRed_eq r

/-- R125, R127: the words whose remainder is a fill address, or is not. -/
theorem ncard_isFillAddress_eq (b : Bool) :
    {x : Word | isFillAddress (modRed x) = b}.ncard = if b then 580400986 else 3714566310 := by
  have hset : {x : Word | isFillAddress (modRed x) = b} =
      {x : Word | modRed x ∈ Finset.univ.filter fun r => isFillAddress r = b} := by
    ext x
    simp
  rw [hset, ncard_modRed_mem]
  cases b with
  | false => decide
  | true => decide

/-- The 32 domain words are distinct, since their remainders are. -/
theorem ncard_isDomainWord : {x : Word | IsDomainWord x}.ncard = 32 := by
  have hrange : {x : Word | IsDomainWord x} = Set.range fun k : Fin 32 => powerWord k.val := by
    ext x
    simp [eq_comm]
  have hinj : Function.Injective fun k : Fin 32 => powerWord k.val :=
    fun _ _ h => Scope.modRed_powerWord_injective (congrArg modRed h)
  rw [hrange, Set.ncard_range_of_injective hinj, Nat.card_eq_fintype_card, Fintype.card_fin]

/-- R125: all domain words have a reachable remainder, so the others there are 32 fewer. -/
theorem ncard_reachable_nonDomain :
    {x : Word | isFillAddress (modRed x) = false ∧ ¬ IsDomainWord x}.ncard = 3714566278 := by
  have hsub : {x : Word | IsDomainWord x} ⊆ {x : Word | isFillAddress (modRed x) = false} :=
    fun _ => isFillAddress_modRed_of_isDomainWord
  calc {x : Word | isFillAddress (modRed x) = false ∧ ¬ IsDomainWord x}.ncard
    _ = ({x : Word | isFillAddress (modRed x) = false} \ {x : Word | IsDomainWord x}).ncard := rfl
    _ = 3714566310 - 32 := by rw [Set.ncard_sdiff hsub, ncard_isFillAddress_eq, ncard_isDomainWord]; rfl

/-- R127: the words of the remainder of 2^k, less 2^k itself. -/
theorem ncard_aliases (k : Fin 32) :
    {x : Word | modRed x = modRed (powerWord k.val) ∧ ¬ IsDomainWord x}.ncard =
      if 2 ^ k.val % 37 ≤ 6 then 116080197 else 116080196 := by
  have hset : {x : Word | modRed x = modRed (powerWord k.val) ∧ ¬ IsDomainWord x} =
      {x : Word | modRed x = modRed (powerWord k.val)} \ {powerWord k.val} := by
    ext x
    exact and_congr_right fun h => not_congr (isDomainWord_iff_eq h)
  have hmem : powerWord k.val ∈ {x : Word | modRed x = modRed (powerWord k.val)} := rfl
  rw [hset, Set.ncard_sdiff_singleton_of_mem hmem, ncard_modRed_eq, Scope.modRed_powerWord_val k.isLt]
  split_ifs <;> rfl

/-! ### What one output says about the other -/

/-- R129: words of one remainder have one result. -/
theorem State.resultO_eq_of_remO_eq {s s' : State} (h : s.remO = s'.remO) : s.resultO = s'.resultO := by
  have hwire : s.remWire = s'.remWire := addressCode_injective h
  rw [State.resultO, State.resultO, hwire]

/-- A result that no fill entry has comes from a reachable address. -/
theorem isFillAddress_modRed_eq_false {fill : FillAddress → Fin 37} {x : Word}
    (h : ∀ f, (computeWith fill x).toNat ≠ (fill f).val) : isFillAddress (modRed x) = false := by
  cases hentry : lutEntry (modRed x) with
  | fixed k => exact isFillAddress_eq_false.mpr ⟨k, hentry⟩
  | fill f => exact absurd (computeWith_toNat_of_fill hentry fill) (h f)

/-- R129: a result that no fill entry repeats determines the remainder. -/
theorem modRed_eq_of_computeWith_eq {fill : FillAddress → Fin 37} {x y : Word}
    (h : computeWith fill x = computeWith fill y) (hfill : ∀ f, (computeWith fill x).toNat ≠ (fill f).val) :
    modRed x = modRed y :=
  romReadWith_injOn_reachable fill (isFillAddress_modRed_eq_false hfill) (isFillAddress_modRed_eq_false (h ▸ hfill))
    (resultWord_injective h)

/-- R129: a fill entry that is an exponent is the result of the fill address, as of that exponent's domain word. -/
theorem computeWith_address_eq {fill : FillAddress → Fin 37} {f : FillAddress} {k : Fin 32}
    (h : (fill f).val = k.val) :
    computeWith fill (BitVec.ofNat 32 f.address.val) = computeWith fill (powerWord k.val) := by
  rw [computeWith_powerWord, computeWith, modRed_ofNat_address,
    resultWord_romReadWith_of_fill f.lutEntry_address, h]

/-- A fill address is the remainder of no domain word. -/
theorem address_ne_modRed_powerWord (f : FillAddress) (k : Fin 32) :
    f.address ≠ modRed (powerWord k.val) := by
  intro h
  have hentry : LutEntry.fill f = .fixed k := f.lutEntry_address.symm.trans (lutEntry_eq_fixed_iff.mpr h)
  cases hentry

end Sys2Proof.Machine

namespace Sys2Proof.Compute

open Sys2Proof Sys2Proof.Machine

/-- Settles O27: the remainder of 2^k is the address that holds k. -/
theorem exactOnTheDomain : Obligations.ExactOnTheDomain := by
  intro k
  refine ⟨fun s => ?ports, fun fill => computeWith_powerWord fill k⟩
  case ports =>
    obtain ⟨t, hstep, hrem, hresult⟩ := step_present_of_fixed rfl (Scope.lutEntry_modRed_powerWord k) s
    refine ⟨t, hstep, hresult, ?_⟩
    rw [hrem, addressCode_toNat, Scope.modRed_powerWord_val k.isLt]

/-- Settles O30: the bounds are those of every state's ports. -/
theorem outputsAreBounded : Obligations.OutputsAreBounded := by
  intro s
  obtain ⟨hrem, hresult, -⟩ := s.bounded
  exact ⟨s, step_next s, hrem, hresult, State.resultO_toNat_le_of_isDomainWord⟩

/-- Settles O31: the two cases are the two kinds of entry, counted by their addresses. -/
theorem nonDomainWords : Obligations.NonDomainWords := by
  refine ⟨fun x h => ?reachable, fun x h => ?fill, ⟨rfl, rfl, rfl, rfl, rfl⟩, fun x s => ?remainder,
    ncard_isFillAddress_eq true, ncard_reachable_nonDomain, fun s => ⟨?three, ?seven⟩⟩
  case reachable =>
    obtain ⟨k, hk⟩ := isFillAddress_eq_false.mp h
    refine ⟨k, hk, fun s => ?_⟩
    obtain ⟨t, hstep, -, hresult⟩ := step_present_of_fixed rfl hk s
    exact ⟨t, hstep, hresult⟩
  case fill =>
    obtain ⟨f, hf⟩ := isFillAddress_eq_true.mp h
    refine ⟨f, hf, fun s => ?_⟩
    obtain ⟨t, hstep, -, hresult⟩ := step_present_of_fill rfl hf s
    exact ⟨t, hstep, hresult⟩
  case remainder => exact ⟨s.present x, step_next _, State.remO_toNat _⟩
  case three => exact step_present_of_fixed (a := 3) (k := 26) rfl rfl s
  case seven => exact step_present_of_fill (a := 7) (f := .a7) rfl rfl s

/-- Settles O33: the outputs are read off the remainder, which one domain word has at most. -/
theorem aliasesOfDomainWords : Obligations.AliasesOfDomainWords := by
  refine ⟨fun k x s h => ?outputs, fun s => ⟨?thirtyEight, ?one⟩, ncard_aliases, fun x hfill hdomain => ?proves,
    ⟨38, ?outside, by decide⟩⟩
  case outputs =>
    have hrem : (s.present x).remO = (s.present (powerWord k.val)).remO := congrArg addressCode h
    exact ⟨_, _, step_next _, step_next _, hrem, State.resultO_eq_of_remO_eq hrem⟩
  case thirtyEight => exact step_present_of_fixed (a := 1) (k := 0) rfl rfl s
  case one => exact step_present_of_fixed (a := 1) (k := 0) rfl rfl s
  case proves => exact Bool.false_ne_true ((isFillAddress_modRed_of_isDomainWord hdomain).symm.trans hfill)
  case outside =>
    have halias : modRed 38 = modRed (powerWord (0 : Fin 32).val) := by decide
    rw [isDomainWord_iff_eq halias]
    decide

/-- Settles O34: both ports are read off the wire `rem`; a result determines it where the table's bijection on the
reachable addresses applies, and a fill entry that is an exponent repeats the one of a domain word. -/
theorem relationBetweenTheOutputs : Obligations.RelationBetweenTheOutputs := by
  refine ⟨fun s => ?entry, fun s s' t t' h h' => ?determined, fun _ _ _ => modRed_eq_of_computeWith_eq,
    fun fill f hle => ?repeated⟩
  case entry => exact ⟨s, step_next s, resultWord_high _, s.remWire, rfl, resultWord_low _⟩
  case determined => exact State.resultO_eq_of_remO_eq
  case repeated =>
    have hexponent : (fill f).val = (⟨(fill f).val, Nat.lt_succ_of_le hle⟩ : Fin 32).val := rfl
    refine ⟨_, _, computeWith_address_eq hexponent, ?_⟩
    rw [modRed_ofNat_address]
    exact address_ne_modRed_powerWord f _

/-- Settles O40: the view is the line's own observation. -/
theorem runObservesEachLineAlone : Obligations.RunObservesEachLineAlone :=
  ⟨lineObservation, observe_eq_map, fun _ => rfl, fun _ => rfl, fun _ => rfl⟩

/-- Settles O26: MODRED and COMPUTE present the same word, and LOG2LUT finds its address on the wire. -/
theorem computeIsReductionThenLookup : Obligations.ComputeIsReductionThenLookup := by
  refine ⟨fun x s => ?ports, fun x s => ?composition, fun s => ?present, fun s => ?worked⟩
  case ports => exact ⟨s.present x, exec_compute x s, s.present_bitI x, s.remO_present x, s.resultO_present x⟩
  case composition =>
    refine ⟨s.present x, exec_modred x s, ?_⟩
    rw [exec_compute, exec_log2lut_present]
  case present => rw [exec_compute, State.present_self]
  case worked => exact step_present_of_fixed (x := 0x20) (a := 32) (k := 5) rfl rfl s

/-- Settles O28: a step is an operation, and no operation stops. -/
theorem everyEvaluationCompletes : Obligations.EveryEvaluationCompletes :=
  ⟨step_completes, fun s x => step_completes (s.present x), exec_completes⟩

/-- Settles O29: a state is its input word, so one presentation leaves one state. -/
theorem outputsDependOnTheWordAlone : Obligations.OutputsDependOnTheWordAlone := by
  refine ⟨fun s s' h => ?sameWord, fun i s t x _ => ?presented⟩
  case sameWord =>
    obtain rfl : s = s' := State.ext_bitI h
    exact ⟨s, step_next s, step_next s⟩
  case presented =>
    have hsame : t.present x = s.present x := State.ext_bitI rfl
    rw [hsame]

/-- Settles O32: 0 stands at a fill address, and all ones at that of 2^27. -/
theorem zeroAndAllOnes : Obligations.ZeroAndAllOnes :=
  fun s => ⟨step_present_of_fill (a := 0) (f := .a0) rfl rfl s, step_present_of_fixed (a := 6) (k := 27) rfl rfl s,
    step_present_of_fixed (a := 6) (k := 27) rfl rfl s⟩

end Sys2Proof.Compute
